-- ==== Sys2Proof/Word.lean ====
section
/-! DEFINITION. The value types of the spec's rule R12 and the two widths of rule R7: bytes, parcels,
the 32-bit Instruction value, XLEN, XLEN-bit words, Registers, Causes and the bus access widths. -/

namespace Sys2Proof

/-- `u8` (R12): one byte, and the width in which small fields are returned. -/
abbrev Byte := BitVec 8

/-- `u16` (R12): a 16-bit unit of instruction fetch (glossary, "Parcel"). -/
abbrev Parcel := BitVec 16

/-- The Instruction value (R21): the 32-bit backing value `w` itself. -/
abbrev Instruction := BitVec 32

/-- `XLEN` (R7, R23): a parameter with exactly two legal values. -/
inductive Xlen where
  | x32
  | x64
  deriving DecidableEq, Repr, Inhabited

/-- `BITS` of R7. -/
abbrev Xlen.bits : Xlen → Nat
  | .x32 => 32
  | .x64 => 64

/-- `X` (R12): the XLEN-bit unsigned type. -/
abbrev XWord (x : Xlen) := BitVec x.bits

/-- `MAX` of R7: the maximum representable value of the XLEN-bit domain. -/
abbrev Xlen.max (x : Xlen) : XWord x := BitVec.allOnes x.bits

/-- An address of the Addressable bus is an XLEN-bit unsigned value (R40, D7). -/
abbrev Addr (x : Xlen) := XWord x

/-- A Cause is one XLEN-bit value (R24, R140). -/
abbrev Cause (x : Xlen) := XWord x

/-- Register (R22): one of the 32 names X0 to X31, as R22's `Fin 32`.
Equality is by number (R133). -/
abbrev Register := Fin 32

/-- The four access widths of the bus (R44). -/
inductive Width where
  | w8
  | w16
  | w32
  | w64
  deriving DecidableEq, Repr, Inhabited

/-- Bytes moved by an access of this width (R44). -/
abbrev Width.bytes : Width → Nat
  | .w8 => 1
  | .w16 => 2
  | .w32 => 4
  | .w64 => 8

/-- Bits moved by an access of this width (R44). -/
abbrev Width.bits : Width → Nat
  | .w8 => 8
  | .w16 => 16
  | .w32 => 32
  | .w64 => 64

end Sys2Proof
end

