-- ==== Sys2Proof/Config.lean ====
section
/-! DEFINITION. What is fixed for one model: the parameters the spec leaves OPEN (R8, D8 to D10, D18, D19,
D21, D28), gathered in one record of free functions, and the record of compressed funct positions (D3). -/

namespace Sys2Proof

/-- One `store_register(r, v)` call (R26): the unit of the history that `hartRegs` looks at (R27). -/
structure RegStore (x : Xlen) where
  reg   : Register
  value : XWord x
  deriving DecidableEq, Repr

/-- What a bus collaborator answers to a write (R42): it lands, or it fails for one of the three reasons
R42 names. The Cause of a failure is `WriteOutcome.result` (Machine/Ops.lean). -/
inductive WriteOutcome where
  | ok
  | misaligned
  | outOfRange
  | unmapped
  deriving DecidableEq, Repr, Inhabited

/-- What a write returns to the execution core (R42): `Ok` or `Err(c)`. -/
inductive WriteResult (x : Xlen) where
  | ok
  | err (c : Cause x)
  deriving DecidableEq, Repr

/-- One Addressable call as the history keeps it (R41, R42: "history of bus calls"). -/
inductive BusCall (x : Xlen) where
  | read  (addr : Addr x) (width : Width) (value : BitVec width.bits)
  | write (addr : Addr x) (width : Width) (value : BitVec width.bits) (result : WriteResult x)
  deriving DecidableEq, Repr

/-- The parameters that belong to the external collaborators and that the spec leaves OPEN. -/
structure Params where
  /-- `hartRegs` (R27, D18): what `load_register` returns, from the history of stores (newest first). -/
  hartRegs : (x : Xlen) → List (RegStore x) → Register → XWord x
  /-- `busRead` (R41, D8, D9): the value of a read, from the address, the width and the history
  (newest first), for the bytes that are not memory contents. -/
  busRead : (x : Xlen) → Addr x → (w : Width) → List (BusCall x) → BitVec w.bits
  /-- `busWrite` (R42, D10): does this write fail, and why. -/
  busWrite : (x : Xlen) → Addr x → (w : Width) → BitVec w.bits → List (BusCall x) → WriteOutcome
  /-- The part of `busRead` that R53 names: is the byte at this address a device's, so that a read does
  not return what was written (DESIGN CHOICE, notes/assumptions/4.md). -/
  isDevice : (x : Xlen) → Nat → Bool
  /-- `interruptCodes` (R152, D19): which Causes with the interrupt bit set are interrupt codes. -/
  interruptCodes : (x : Xlen) → Cause x → Bool
  /-- `resetPc` (R172, D21). -/
  resetPc : (x : Xlen) → Addr x
  /-- Where `n` bytes past address `a` lies when that is past the top of the address space: the spec says
  neither that addresses wrap nor that they trap (R29, N21), so the value is free. -/
  pastTop : (x : Xlen) → (a : Addr x) → (n : Nat) → Addr x
  deriving Inhabited

/-- The collaborators' behaviour that `exec` and `step` run with: free, no proof can see what it is. -/
opaque Config.params : Params

/-- Low bit positions of the four compressed funct fields (`cfunctPos`, D3). The values are
`cfunctPos` in Decode.lean. -/
structure CFunctPos where
  funct2 : Nat
  funct3 : Nat
  funct4 : Nat
  funct6 : Nat
  deriving DecidableEq, Repr

end Sys2Proof
end

