-- ==== Sys2Proof/Machine/Registers.lean ====
section
/-! DEFINITION. The register-field indexer (spec/44_register.md, R127, R130 to R136). -/

namespace Sys2Proof

/-- `Register::new(num)` (R130): the one checked entry point. -/
def Register.new (num : BitVec 8) : Option Register :=
  if h : num.toNat < 32 then some ⟨num.toNat, h⟩ else none

/-- `r as u8` (R132). -/
def Register.number (r : Register) : BitVec 8 := BitVec.ofNat 8 r.val

/-- Debug rendering `x<N>` (R134). -/
def Register.render (r : Register) : String := "x" ++ toString r.val

/-- A Register from a 5-bit field (R103, R135): the width is the bound, so no check is needed and no
invalid input can be written (R131, D29). -/
def Register.ofField (b : BitVec 5) : Register := ⟨b.toNat, b.isLt⟩

/-- The abbreviated register law (R127): raw value plus 8, so X8 to X15. -/
def Register.abbreviated (b : BitVec 3) : Register := ⟨b.toNat + 8, by have := b.isLt; omega⟩

/-- The 5-bit field that names a Register, for the encoder (R61, R67). -/
def Register.toField (r : Register) : BitVec 5 := BitVec.ofNat 5 r.val

end Sys2Proof
end

