-- ==== Sys2Proof/Machine/CompressedFields.lean ====
section
/-! DEFINITION. The compressed-encoding field accessors (spec/43_compressed_fields.md). Every field lies in
w[15:0] (R69). -/

namespace Sys2Proof

/-- `cfunctPos` with the defaults of D3 (R68): the RISC-V C-extension positions. -/
def cfunctPos : CFunctPos := { funct2 := 5, funct3 := 13, funct4 := 12, funct6 := 10 }

/-- `op` (R120): w[1:0]. -/
def Instruction.op (w : Instruction) : BitVec 8 := (w.extractLsb' 0 2).setWidth 8

/-- `compressed_funct2` (R121): two bits, w[6:5] by D3. -/
def Instruction.compressedFunct2 (w : Instruction) : BitVec 8 := (w.extractLsb' cfunctPos.funct2 2).setWidth 8

/-- `compressed_funct3` (R122): three bits, w[15:13] by D3. -/
def Instruction.compressedFunct3 (w : Instruction) : BitVec 8 := (w.extractLsb' cfunctPos.funct3 3).setWidth 8

/-- `compressed_funct4` (R123): four bits, w[15:12] by D3. -/
def Instruction.compressedFunct4 (w : Instruction) : BitVec 8 := (w.extractLsb' cfunctPos.funct4 4).setWidth 8

/-- `compressed_funct6` (R124): six bits, w[15:10] by D3. -/
def Instruction.compressedFunct6 (w : Instruction) : BitVec 8 := (w.extractLsb' cfunctPos.funct6 6).setWidth 8

/-- `compressed_rs1` (R125): w[11:7]. -/
def Instruction.compressedRs1 (w : Instruction) : Register := Register.ofField (w.extractLsb' 7 5)

/-- `compressed_rs2` (R126): w[6:2]. -/
def Instruction.compressedRs2 (w : Instruction) : Register := Register.ofField (w.extractLsb' 2 5)

/-- `crs1` (R128): w[9:7] plus 8. -/
def Instruction.crs1 (w : Instruction) : Register := Register.abbreviated (w.extractLsb' 7 3)

/-- `crs2` (R129): w[4:2] plus 8. -/
def Instruction.crs2 (w : Instruction) : Register := Register.abbreviated (w.extractLsb' 2 3)

end Sys2Proof
end

