-- ==== Sys2Proof/Machine/Immediates.lean ====
section
/-! DEFINITION. The five immediate decoders in the spec's shift-and-mask form (spec/42_immediates.md),
and the consumer's widening (R117). -/

namespace Sys2Proof

/-- `i_immediate` (R111): `w >>s 20`. -/
def Instruction.iImmediate (w : Instruction) : BitVec 32 := w.sshiftRight 20

/-- `s_immediate` (R112). -/
def Instruction.sImmediate (w : Instruction) : BitVec 32 :=
  (w.sshiftRight 20 &&& ~~~0x1f#32) ||| ((w >>> 7) &&& 0x1f#32)

/-- `b_immediate` (R113): the mask keeps bit 12 (C1). -/
def Instruction.bImmediate (w : Instruction) : BitVec 32 :=
  (w.sshiftRight 19 &&& 0xfffff000#32) ||| (((w >>> 7) &&& 0x1#32) <<< 11)
    ||| (((w >>> 25) &&& 0x3f#32) <<< 5) ||| (((w >>> 8) &&& 0xf#32) <<< 1)

/-- `u_immediate` (R114): not shifted down. -/
def Instruction.uImmediate (w : Instruction) : BitVec 32 := w &&& 0xfffff000#32

/-- `j_immediate` (R115): the mask keeps bit 20 (C2, D4). -/
def Instruction.jImmediate (w : Instruction) : BitVec 32 :=
  (w.sshiftRight 11 &&& 0xfff00000#32) ||| (w &&& 0x000ff000#32)
    ||| (((w >>> 20) &&& 0x1#32) <<< 11) ||| (((w >>> 21) &&& 0x3ff#32) <<< 1)

/-- The architectural immediate of an XLEN-bit consumer (R117, D17): `sext_XLEN` of the decoder's result,
for all five formats. -/
def widenImmediate (x : Xlen) (imm : BitVec 32) : XWord x := imm.signExtend x.bits

end Sys2Proof
end

