-- ==== Sys2Proof/Syntax.lean ====
section
/-! DEFINITION. The instructions: one constructor per row of spec/opcode_table.json. The first four rows
are the length classes (R60, R71), the other thirteen the major opcodes of R72. -/

namespace Sys2Proof

/-- One constructor per row of the opcode table. Operands are the fields of R61 and R67; an immediate
operand is the 32-bit value the row's decoder returns (R110), so only some values are encodable
(WellFormed.lean). A 16-bit word is `funct4` = w[15:12], `rs1` = w[11:7], `rs2` = w[6:2], `op` = w[1:0]
(R67, R68), which covers each of its bits once. -/
inductive Instr where
  /-- STANDARD_32: a standard word of none of the thirteen major opcodes below. -/
  | standard32 (opcode : BitVec 7) (rd : Register) (funct3 : BitVec 3) (rs1 rs2 : Register) (funct7 : BitVec 7)
  /-- COMPRESSED_Q0: w[1:0] = 0b00. -/
  | compressedQ0 (funct4 : BitVec 4) (rs1 rs2 : Register)
  /-- COMPRESSED_Q1: w[1:0] = 0b01. -/
  | compressedQ1 (funct4 : BitVec 4) (rs1 rs2 : Register)
  /-- COMPRESSED_Q2: w[1:0] = 0b10. -/
  | compressedQ2 (funct4 : BitVec 4) (rs1 rs2 : Register)
  | load    (rd : Register) (funct3 : BitVec 3) (rs1 : Register) (imm : BitVec 32)
  | miscMem (rd : Register) (funct3 : BitVec 3) (rs1 : Register) (imm : BitVec 32)
  | opImm   (rd : Register) (funct3 : BitVec 3) (rs1 : Register) (imm : BitVec 32)
  | auipc   (rd : Register) (imm : BitVec 32)
  | opImm32 (rd : Register) (funct3 : BitVec 3) (rs1 : Register) (imm : BitVec 32)
  | store   (funct3 : BitVec 3) (rs1 rs2 : Register) (imm : BitVec 32)
  | op      (rd : Register) (funct3 : BitVec 3) (rs1 rs2 : Register) (funct7 : BitVec 7)
  | lui     (rd : Register) (imm : BitVec 32)
  | op32    (rd : Register) (funct3 : BitVec 3) (rs1 rs2 : Register) (funct7 : BitVec 7)
  | branch  (funct3 : BitVec 3) (rs1 rs2 : Register) (imm : BitVec 32)
  | jalr    (rd : Register) (funct3 : BitVec 3) (rs1 : Register) (imm : BitVec 32)
  | jal     (rd : Register) (imm : BitVec 32)
  | system  (rd : Register) (funct3 : BitVec 3) (rs1 : Register) (imm : BitVec 32)
  deriving DecidableEq, Repr

/-- The four length classes (R60): the block's whole opcode space, and the normative rows of the table (R71). -/
inductive LengthClass where
  | standard32 | compressedQ0 | compressedQ1 | compressedQ2
  deriving DecidableEq, Repr

/-- The thirteen major opcodes of R72. -/
inductive MajorOpcode where
  | load | miscMem | opImm | auipc | opImm32 | store | op | lui | op32 | branch | jalr | jal | system
  deriving DecidableEq, Repr

/-- The six layouts of R61 to R66. -/
inductive Format where
  | r | i | s | b | u | j
  deriving DecidableEq, Repr

/-- Every output function of the block on an Instruction (R92, R93, R100 to R105, R111 to R115,
R120 to R126, R128, R129). -/
inductive Accessor where
  | compressed | standard
  | opcode | funct3 | funct7 | rd | rs1 | rs2
  | iImmediate | sImmediate | bImmediate | uImmediate | jImmediate
  | op | compressedFunct2 | compressedFunct3 | compressedFunct4 | compressedFunct6
  | compressedRs1 | compressedRs2 | crs1 | crs2
  deriving DecidableEq, Repr

/-- What an accessor returns (R71: "unsigned 8/32-bit values, `Register` enumerants"; R92, R93: a bool). -/
inductive Value where
  | bool (b : Bool)
  | u8 (v : BitVec 8)
  | u32 (v : BitVec 32)
  | register (r : Register)
  deriving DecidableEq, Repr

/-- The eight predefined exception codes (R143 to R150). -/
inductive ExceptionCode where
  | fetchMisaligned
  | fetchFault
  | illegalInstruction
  | breakpoint
  | loadMisaligned
  | loadFault
  | storeMisaligned
  | storeFault
  deriving DecidableEq, Repr

end Sys2Proof
end

