-- ==== Sys2Proof/Machine/StandardFields.lean ====
section
/-! DEFINITION. Construction, length detection (spec/40_decode_entry.md) and the standard-encoding field
accessors (spec/41_standard_fields.md). Each is a total function of the backing value (R94). -/

namespace Sys2Proof

/-- `new(word)` (R90): the word is kept whole, whatever its length class. -/
def Instruction.new (word : BitVec 32) : Instruction := word

/-- `standard(self)` (R93, R60): w[1:0] = 0b11. -/
def Instruction.standard (w : Instruction) : Bool := w.extractLsb' 0 2 == 0b11#2

/-- `compressed(self)` (R92, R60): w[1:0] is not 0b11. -/
def Instruction.compressed (w : Instruction) : Bool := w.extractLsb' 0 2 != 0b11#2

/-- The length class of a word (R60, R71), from w[1:0] alone: every standard word is of the one class
STANDARD_32, whatever its major opcode. -/
def Instruction.lengthClass (w : Instruction) : LengthClass :=
  if w.extractLsb' 0 2 == 0b00#2 then .compressedQ0
  else if w.extractLsb' 0 2 == 0b01#2 then .compressedQ1
  else if w.extractLsb' 0 2 == 0b10#2 then .compressedQ2
  else .standard32

/-- `from_parcels` (R91): length by the first parcel alone; the flag says that only the first parcel was
consumed. A compressed value has bits [31:16] zero (R69); a standard one is the parcels in
little-endian order (R45). -/
def Instruction.fromParcels (p0 p1 : Parcel) : Instruction × Bool :=
  if p0.extractLsb' 0 2 != 0b11#2 then (p0.setWidth 32, true) else (p1 ++ p0, false)

/-- `opcode` (R100): w[6:0]. -/
def Instruction.opcode (w : Instruction) : BitVec 8 := (w.extractLsb' 0 7).setWidth 8

/-- `funct3` (R101): w[14:12]. -/
def Instruction.funct3 (w : Instruction) : BitVec 8 := (w.extractLsb' 12 3).setWidth 8

/-- `funct7` (R102): w[31:25], zero-extended. -/
def Instruction.funct7 (w : Instruction) : BitVec 8 := (w.extractLsb' 25 7).setWidth 8

/-- `rd` (R103): w[11:7]. -/
def Instruction.rd (w : Instruction) : Register := Register.ofField (w.extractLsb' 7 5)

/-- `rs1` (R104): w[19:15]. -/
def Instruction.rs1 (w : Instruction) : Register := Register.ofField (w.extractLsb' 15 5)

/-- `rs2` (R105): w[24:20]. -/
def Instruction.rs2 (w : Instruction) : Register := Register.ofField (w.extractLsb' 20 5)

end Sys2Proof
end

