-- ==== Sys2Proof/Machine/OpcodeMap.lean ====
section
/-! DEFINITION. The informative map of major opcodes to formats (R72), which a consumer uses to choose
accessors (R79). No accessor depends on it. -/

namespace Sys2Proof

/-- w[6:0] of each row of R72. -/
def MajorOpcode.code : MajorOpcode → BitVec 7
  | .load => 0b0000011
  | .miscMem => 0b0001111
  | .opImm => 0b0010011
  | .auipc => 0b0010111
  | .opImm32 => 0b0011011
  | .store => 0b0100011
  | .op => 0b0110011
  | .lui => 0b0110111
  | .op32 => 0b0111011
  | .branch => 0b1100011
  | .jalr => 0b1100111
  | .jal => 0b1101111
  | .system => 0b1110011

/-- The format column of R72. -/
def MajorOpcode.format : MajorOpcode → Format
  | .load | .miscMem | .opImm | .opImm32 | .jalr | .system => .i
  | .auipc | .lui => .u
  | .store => .s
  | .op | .op32 => .r
  | .branch => .b
  | .jal => .j

/-- The rows of R72. -/
def MajorOpcode.all : List MajorOpcode :=
  [.load, .miscMem, .opImm, .auipc, .opImm32, .store, .op, .lui, .op32, .branch, .jalr, .jal, .system]

/-- The row of R72 that w[6:0] selects, if there is one. -/
def MajorOpcode.ofCode (c : BitVec 7) : Option MajorOpcode :=
  MajorOpcode.all.find? (fun m => m.code == c)

end Sys2Proof
end

