-- ==== Sys2Proof/WellFormed.lean ====
section
/-! DEFINITION. Which terms of Instr stand for a word: the immediates their formats can hold (R62 to R66,
R116, R118), and the opcodes left to STANDARD_32. -/

namespace Sys2Proof

/-- Sign-extended from bit 11: an I- or S-type immediate (R62, R63). -/
def fits12 (imm : BitVec 32) : Bool := (imm.extractLsb' 0 12).signExtend 32 == imm

/-- Sign-extended from bit 12 and even: a B-type immediate (R64, R118). -/
def fits13Even (imm : BitVec 32) : Bool := (imm.extractLsb' 0 13).signExtend 32 == imm && !imm.getLsbD 0

/-- Low 12 bits zero: a U-type immediate (R65). -/
def fitsUpper (imm : BitVec 32) : Bool := imm.extractLsb' 0 12 == 0#12

/-- Sign-extended from bit 20 and even: a J-type immediate (R66, R118). -/
def fits21Even (imm : BitVec 32) : Bool := (imm.extractLsb' 0 21).signExtend 32 == imm && !imm.getLsbD 0

/-- An opcode of STANDARD_32's own: w[1:0] = 0b11 (R60) and no row of R72. -/
def standardOpcodeOk (opcode : BitVec 7) : Bool :=
  opcode.extractLsb' 0 2 == 0b11#2 && (MajorOpcode.ofCode opcode).isNone

/-- The instruction stands for a word. -/
def Instr.wf : Instr → Bool
  | .standard32 opcode _ _ _ _ _ => standardOpcodeOk opcode
  | .compressedQ0 _ _ _ => true
  | .compressedQ1 _ _ _ => true
  | .compressedQ2 _ _ _ => true
  | .load _ _ _ imm => fits12 imm
  | .miscMem _ _ _ imm => fits12 imm
  | .opImm _ _ _ imm => fits12 imm
  | .auipc _ imm => fitsUpper imm
  | .opImm32 _ _ _ imm => fits12 imm
  | .store _ _ _ imm => fits12 imm
  | .op _ _ _ _ _ => true
  | .lui _ imm => fitsUpper imm
  | .op32 _ _ _ _ _ => true
  | .branch _ _ _ imm => fits13Even imm
  | .jalr _ _ _ imm => fits12 imm
  | .jal _ imm => fits21Even imm
  | .system _ _ _ imm => fits12 imm

end Sys2Proof
end

