-- ==== Sys2Proof/Decode.lean ====
section
/-! DEFINITION. The decoder, total on any word and on any bytes, and the encoder. Every word is accepted
(R73, R74); only a byte string that ends inside an instruction is rejected. -/

namespace Sys2Proof

/-- The row of the opcode table a standard word stands for: the major opcode's if w[6:0] is in R72, else
STANDARD_32 (notes/assumptions/1.md). -/
def decodeStandard (w : Instruction) : Instr :=
  let f3 := w.extractLsb' 12 3
  let f7 := w.extractLsb' 25 7
  match MajorOpcode.ofCode (w.extractLsb' 0 7) with
  | none => .standard32 (w.extractLsb' 0 7) w.rd f3 w.rs1 w.rs2 f7
  | some .load => .load w.rd f3 w.rs1 w.iImmediate
  | some .miscMem => .miscMem w.rd f3 w.rs1 w.iImmediate
  | some .opImm => .opImm w.rd f3 w.rs1 w.iImmediate
  | some .auipc => .auipc w.rd w.uImmediate
  | some .opImm32 => .opImm32 w.rd f3 w.rs1 w.iImmediate
  | some .store => .store f3 w.rs1 w.rs2 w.sImmediate
  | some .op => .op w.rd f3 w.rs1 w.rs2 f7
  | some .lui => .lui w.rd w.uImmediate
  | some .op32 => .op32 w.rd f3 w.rs1 w.rs2 f7
  | some .branch => .branch f3 w.rs1 w.rs2 w.bImmediate
  | some .jalr => .jalr w.rd f3 w.rs1 w.iImmediate
  | some .jal => .jal w.rd w.jImmediate
  | some .system => .system w.rd f3 w.rs1 w.iImmediate

/-- The length class decides (R60): w[1:0] = 0b11 is standard, each other value a quadrant of its own.
A compressed word's bits [31:16] play no part (R69). -/
def decodeInstruction (w : Instruction) : Instr :=
  match Instruction.lengthClass w with
  | .compressedQ0 => .compressedQ0 (w.extractLsb' 12 4) w.compressedRs1 w.compressedRs2
  | .compressedQ1 => .compressedQ1 (w.extractLsb' 12 4) w.compressedRs1 w.compressedRs2
  | .compressedQ2 => .compressedQ2 (w.extractLsb' 12 4) w.compressedRs1 w.compressedRs2
  | .standard32 => decodeStandard w

/-- Why bytes are rejected: they end before the instruction does. -/
inductive DecodeError where
  | truncated
  deriving DecidableEq, Repr

/-- A parcel from its two bytes, the byte at the lower address low (R46, D6). -/
def parcelOfBytes (b0 b1 : Byte) : Parcel := b1 ++ b0

/-- The first instruction of a byte string and the bytes after it (R45, R91). -/
def decode : List Byte → Except DecodeError (Instr × List Byte)
  | b0 :: b1 :: rest =>
    match rest, (Instruction.fromParcels (parcelOfBytes b0 b1) 0).2 with
    | rest, true => .ok (decodeInstruction (Instruction.fromParcels (parcelOfBytes b0 b1) 0).1, rest)
    | b2 :: b3 :: rest, false =>
      .ok (decodeInstruction (Instruction.fromParcels (parcelOfBytes b0 b1) (parcelOfBytes b2 b3)).1, rest)
    | _, false => .error .truncated
  | _ => .error .truncated

/-- The R layout (R61). -/
def encodeR (opcode : BitVec 7) (rd : Register) (f3 : BitVec 3) (rs1 rs2 : Register) (f7 : BitVec 7) : Instruction :=
  f7 ++ rs2.toField ++ rs1.toField ++ f3 ++ rd.toField ++ opcode

/-- The I layout (R62). -/
def encodeI (opcode : BitVec 7) (rd : Register) (f3 : BitVec 3) (rs1 : Register) (imm : BitVec 32) : Instruction :=
  imm.extractLsb' 0 12 ++ rs1.toField ++ f3 ++ rd.toField ++ opcode

/-- The S layout (R63). -/
def encodeS (opcode : BitVec 7) (f3 : BitVec 3) (rs1 rs2 : Register) (imm : BitVec 32) : Instruction :=
  imm.extractLsb' 5 7 ++ rs2.toField ++ rs1.toField ++ f3 ++ imm.extractLsb' 0 5 ++ opcode

/-- The B layout (R64). -/
def encodeB (opcode : BitVec 7) (f3 : BitVec 3) (rs1 rs2 : Register) (imm : BitVec 32) : Instruction :=
  imm.extractLsb' 12 1 ++ imm.extractLsb' 5 6 ++ rs2.toField ++ rs1.toField ++ f3
    ++ imm.extractLsb' 1 4 ++ imm.extractLsb' 11 1 ++ opcode

/-- The U layout (R65). -/
def encodeU (opcode : BitVec 7) (rd : Register) (imm : BitVec 32) : Instruction :=
  imm.extractLsb' 12 20 ++ rd.toField ++ opcode

/-- The J layout (R66). -/
def encodeJ (opcode : BitVec 7) (rd : Register) (imm : BitVec 32) : Instruction :=
  imm.extractLsb' 20 1 ++ imm.extractLsb' 1 10 ++ imm.extractLsb' 11 1 ++ imm.extractLsb' 12 8 ++ rd.toField ++ opcode

/-- A compressed word in the backing value, bits [31:16] zero (R67 to R69). -/
def encodeC (op : BitVec 2) (f4 : BitVec 4) (rs1 rs2 : Register) : Instruction :=
  0#16 ++ f4 ++ rs1.toField ++ rs2.toField ++ op

/-- The backing value an instruction stands for (R21). -/
def encode : Instr → Instruction
  | .standard32 opcode rd f3 rs1 rs2 f7 => encodeR opcode rd f3 rs1 rs2 f7
  | .compressedQ0 f4 rs1 rs2 => encodeC 0b00 f4 rs1 rs2
  | .compressedQ1 f4 rs1 rs2 => encodeC 0b01 f4 rs1 rs2
  | .compressedQ2 f4 rs1 rs2 => encodeC 0b10 f4 rs1 rs2
  | .load rd f3 rs1 imm => encodeI MajorOpcode.load.code rd f3 rs1 imm
  | .miscMem rd f3 rs1 imm => encodeI MajorOpcode.miscMem.code rd f3 rs1 imm
  | .opImm rd f3 rs1 imm => encodeI MajorOpcode.opImm.code rd f3 rs1 imm
  | .auipc rd imm => encodeU MajorOpcode.auipc.code rd imm
  | .opImm32 rd f3 rs1 imm => encodeI MajorOpcode.opImm32.code rd f3 rs1 imm
  | .store f3 rs1 rs2 imm => encodeS MajorOpcode.store.code f3 rs1 rs2 imm
  | .op rd f3 rs1 rs2 f7 => encodeR MajorOpcode.op.code rd f3 rs1 rs2 f7
  | .lui rd imm => encodeU MajorOpcode.lui.code rd imm
  | .op32 rd f3 rs1 rs2 f7 => encodeR MajorOpcode.op32.code rd f3 rs1 rs2 f7
  | .branch f3 rs1 rs2 imm => encodeB MajorOpcode.branch.code f3 rs1 rs2 imm
  | .jalr rd f3 rs1 imm => encodeI MajorOpcode.jalr.code rd f3 rs1 imm
  | .jal rd imm => encodeJ MajorOpcode.jal.code rd imm
  | .system rd f3 rs1 imm => encodeI MajorOpcode.system.code rd f3 rs1 imm

/-- The instruction is one 16-bit parcel (R60). -/
def Instr.isCompressed : Instr → Bool
  | .compressedQ0 _ _ _ => true
  | .compressedQ1 _ _ _ => true
  | .compressedQ2 _ _ _ => true
  | .standard32 _ _ _ _ _ _ => false
  | .load _ _ _ _ => false
  | .miscMem _ _ _ _ => false
  | .opImm _ _ _ _ => false
  | .auipc _ _ => false
  | .opImm32 _ _ _ _ => false
  | .store _ _ _ _ => false
  | .op _ _ _ _ _ => false
  | .lui _ _ => false
  | .op32 _ _ _ _ _ => false
  | .branch _ _ _ _ => false
  | .jalr _ _ _ _ => false
  | .jal _ _ => false
  | .system _ _ _ _ => false

/-- The four bytes of a 32-bit value, lowest address first (R46, D6). -/
def bytesOfWord (w : BitVec 32) : List Byte :=
  [w.extractLsb' 0 8, w.extractLsb' 8 8, w.extractLsb' 16 8, w.extractLsb' 24 8]

/-- The row of the opcode table each constructor stands for: its `mask` and its `match`. -/
def Instr.row : Instr → BitVec 32 × BitVec 32
  | .standard32 _ _ _ _ _ _ => (0x3, 0x3)
  | .compressedQ0 _ _ _ => (0x3, 0x0)
  | .compressedQ1 _ _ _ => (0x3, 0x1)
  | .compressedQ2 _ _ _ => (0x3, 0x2)
  | .load _ _ _ _ => (0x7f, 0x03)
  | .miscMem _ _ _ _ => (0x7f, 0x0f)
  | .opImm _ _ _ _ => (0x7f, 0x13)
  | .auipc _ _ => (0x7f, 0x17)
  | .opImm32 _ _ _ _ => (0x7f, 0x1b)
  | .store _ _ _ _ => (0x7f, 0x23)
  | .op _ _ _ _ _ => (0x7f, 0x33)
  | .lui _ _ => (0x7f, 0x37)
  | .op32 _ _ _ _ _ => (0x7f, 0x3b)
  | .branch _ _ _ _ => (0x7f, 0x63)
  | .jalr _ _ _ _ => (0x7f, 0x67)
  | .jal _ _ => (0x7f, 0x6f)
  | .system _ _ _ _ => (0x7f, 0x73)

/-- The bytes an instruction occupies, lowest address first: two or four (R60). -/
def encodeBytes (i : Instr) : List Byte :=
  if i.isCompressed then (bytesOfWord (encode i)).take 2 else bytesOfWord (encode i)

/-- The bits of an instruction of the opcode table: `nbits` bits of `w`, every bit above them 0. -/
def tableWord (nbits w : Nat) : BitVec 32 := BitVec.ofNat 32 (w % 2 ^ nbits)

/-- The instruction the decoder reads from a word numbered as the opcode table numbers it. -/
def decodeTableWord (nbits w : Nat) : Option Instr :=
  match decode (bytesOfWord (tableWord nbits w)) with
  | .ok (i, _) => some i
  | .error _ => none

end Sys2Proof
end

