-- ==== Sys2Proof/Machine/Causes.lean ====
section
/-! DEFINITION. The Cause value and its codes (spec/60_exceptions.md, R140 to R156). The block never raises
a Cause and has no trap entry and no trap return (R155, R158, R159): these are the values the execution
core and the bus exchange. -/

namespace Sys2Proof

/-- `interrupt(self)` (R141): the top bit, and nothing else. -/
def Cause.interrupt {x : Xlen} (c : Cause x) : Bool := c.getLsbD (x.bits - 1)

/-- `code(c)` (R142, D25): every bit but the top one. -/
def Cause.code {x : Xlen} (c : Cause x) : XWord x := c &&& (BitVec.twoPow x.bits (x.bits - 1) - 1)

/-- The number of an exception code (R143 to R150). -/
def ExceptionCode.number : ExceptionCode → Nat
  | .fetchMisaligned => 0
  | .fetchFault => 1
  | .illegalInstruction => 2
  | .breakpoint => 3
  | .loadMisaligned => 4
  | .loadFault => 5
  | .storeMisaligned => 6
  | .storeFault => 7

/-- The Cause of an exception code at either width (R142, R151, D25): `zext_XLEN` of the code. -/
def Cause.ofException (x : Xlen) (e : ExceptionCode) : Cause x := BitVec.ofNat x.bits e.number

/-- The eight codes, in the order of their numbers. -/
def ExceptionCode.all : List ExceptionCode :=
  [.fetchMisaligned, .fetchFault, .illegalInstruction, .breakpoint,
   .loadMisaligned, .loadFault, .storeMisaligned, .storeFault]

/-- The exception a Cause names: none for an interrupt and none for a code above 7 (R153). -/
def Cause.exception {x : Xlen} (c : Cause x) : Option ExceptionCode :=
  if Cause.interrupt c then none else ExceptionCode.all.find? (fun e => Cause.ofException x e == c)

/-- The Cause is one of the execution core's interrupt codes, which are OPEN (R152, D19): its top bit is
set, and `interruptCodes` holds it. -/
def Cause.isInterruptCode (p : Params) {x : Xlen} (c : Cause x) : Bool :=
  Cause.interrupt c && p.interruptCodes x c

end Sys2Proof
end

