-- ==== Sys2Proof/Machine/Flags.lean ====
section
/-! DEFINITION. The machine has no condition codes (R30). The one flag the spec gives is that of
`from_parcels`: "whether only the first parcel was consumed" (R91). What a consumer makes of it stands
here. -/

namespace Sys2Proof

/-- Bytes the consumer advances by, from the flag (R29, R91, R175, D15). -/
def advanceBytes (flag : Bool) : Nat := if flag then 2 else 4

/-- The address `n` bytes past `a`. The spec says neither that it wraps nor that it traps past the top of
the address space (R29, N21): there it is a free value, of which R47 leaves only that an instruction
address is 2-byte aligned (notes/assumptions/6.md). -/
def nextAddress (p : Params) {x : Xlen} (a : Addr x) (n : Nat) : Addr x :=
  if a.toNat + n < 2 ^ x.bits then BitVec.ofNat x.bits (a.toNat + n)
  else p.pastTop x a n &&& ~~~(1#x.bits)

end Sys2Proof
end

