-- ==== Sys2Proof/Machine/State.lean ====
section
/-! DEFINITION. The state. The block itself holds none (R20); what is here is the state at its boundary
(spec/10_state.md sections 2 and 3): the Hart with its registers and its bus, the fetch position of the
consumer that runs the fetch loop of spec/95_test_vectors.md section 3, and the list that loop records. -/

namespace Sys2Proof.Machine

/-- Bus contents that are known: bytes loaded before the run or written with `Ok`, in rising order of
address. What an address that is not listed reads as is `Bus.byteAt`. -/
abbrev Memory := List Host.Cell

/-- The Addressable of a Hart (R25, R34, R40): known contents, and the history of its calls, newest first
(R41, R42). -/
structure Bus (x : Xlen) where
  mem : Memory
  log : List (BusCall x)
  deriving DecidableEq, Repr

/-- A Hart (R25): its register file, held as the history of `store_register` calls, newest first, because
that is what R27 makes the value of a register a function of; and `bus()` (R34). -/
structure Hart (x : Xlen) where
  regStores : List (RegStore x)
  bus : Bus x
  deriving DecidableEq, Repr

/-- One record of the fetch loop: the address, the backing value and the `from_parcels` flag, the
accessors the consumer applied with the values the block returned, and the architectural immediate of
the format the consumer chose (R72, R79, R117), if that format has one. -/
structure Entry (x : Xlen) where
  addr      : Addr x
  inst      : Instruction
  flag      : Bool
  applied   : List (Accessor × Value)
  immediate : Option (XWord x)
  deriving DecidableEq, Repr

/-- The machine: the model instance's XLEN (R7, D28), the fetch position (R29), the Hart, and the records
of the fetch loop, newest first. -/
structure State where
  xlen   : Xlen
  pc     : Addr xlen
  hart   : Hart xlen
  record : List (Entry xlen)
  deriving DecidableEq, Repr

/-- Why the machine stops with a fault. There is no such reason: "The block raises no exception" (R155),
every operation is total (R94), and a failed write is a value its caller is given (`WriteResult`). -/
inductive Fault where
  deriving DecidableEq, Repr

/-- Why a use is refused. -/
inductive Refusal where
  /-- An instruction that has no meaning yet. Raised by an arm of `exec`; no arm raises it. Safe. -/
  | notModelled (mnemonic : String)
  /-- A consumer's use of an accessor on an Instruction of the other width, which the source calls
  "undefined/meaningless" (R14, R94, D5). Raised by `Accessor.use` alone. Safe: the block itself would
  return the bit extraction. -/
  | wrongWidthAccessor (accessor : Accessor)
  deriving DecidableEq, Repr

/-- A Hart that has done nothing: no register stored to, nothing known on the bus, no bus call made. What
its registers and its bus then hold is `hartRegs`' and `busRead`'s of no history (R27, R41, R171). -/
def Hart.reset (x : Xlen) : Hart x := { regStores := [], bus := { mem := [], log := [] } }

/-- A machine of width `x` whose fetch position is `pc`, before anything has run (R170, R171). -/
def State.resetAt (x : Xlen) (pc : Addr x) : State :=
  { xlen := x, pc := pc, hart := Hart.reset x, record := [] }

/-- The reset state of a model whose parameters are `p` (R171, R172). -/
def State.resetOf (p : Params) (x : Xlen) : State := State.resetAt x (p.resetPc x)

/-- The reset state the host runs: XLEN 32 and fetch position 0. The spec gives neither (D21, D28): DESIGN
CHOICE, notes/assumptions/2.md and 3.md. -/
def State.reset : State := State.resetAt .x32 0

end Sys2Proof.Machine
end

