-- ==== Sys2Proof/Machine/Operands.lean ====
section
/-! DEFINITION. The operand forms: every accessor as a value of one type, which of them have a meaning for
which width (R14, R94), and which of them each format's consumer applies (R72, R79, spec/opcode_table.json). -/

namespace Sys2Proof

open Sys2Proof.Machine

/-- The block's output for an accessor: a total function of the backing value alone (R6, R94). -/
def Accessor.value : Accessor → Instruction → Value
  | .compressed, w => .bool (Instruction.compressed w)
  | .standard, w => .bool (Instruction.standard w)
  | .opcode, w => .u8 (Instruction.opcode w)
  | .funct3, w => .u8 (Instruction.funct3 w)
  | .funct7, w => .u8 (Instruction.funct7 w)
  | .rd, w => .register (Instruction.rd w)
  | .rs1, w => .register (Instruction.rs1 w)
  | .rs2, w => .register (Instruction.rs2 w)
  | .iImmediate, w => .u32 (Instruction.iImmediate w)
  | .sImmediate, w => .u32 (Instruction.sImmediate w)
  | .bImmediate, w => .u32 (Instruction.bImmediate w)
  | .uImmediate, w => .u32 (Instruction.uImmediate w)
  | .jImmediate, w => .u32 (Instruction.jImmediate w)
  | .op, w => .u8 (Instruction.op w)
  | .compressedFunct2, w => .u8 (Instruction.compressedFunct2 w)
  | .compressedFunct3, w => .u8 (Instruction.compressedFunct3 w)
  | .compressedFunct4, w => .u8 (Instruction.compressedFunct4 w)
  | .compressedFunct6, w => .u8 (Instruction.compressedFunct6 w)
  | .compressedRs1, w => .register (Instruction.compressedRs1 w)
  | .compressedRs2, w => .register (Instruction.compressedRs2 w)
  | .crs1, w => .register (Instruction.crs1 w)
  | .crs2, w => .register (Instruction.crs2 w)

/-- The accessor has a meaning for this Instruction (R94): standard accessors for standard words,
compressed ones for compressed words, the two length tests for every word. -/
def Accessor.meaningful : Accessor → Instruction → Bool
  | .compressed, _ | .standard, _ => true
  | .opcode, w | .funct3, w | .funct7, w | .rd, w | .rs1, w | .rs2, w => Instruction.standard w
  | .iImmediate, w | .sImmediate, w | .bImmediate, w | .uImmediate, w | .jImmediate, w => Instruction.standard w
  | .op, w | .compressedFunct2, w | .compressedFunct3, w | .compressedFunct4, w => Instruction.compressed w
  | .compressedFunct6, w | .compressedRs1, w | .compressedRs2, w | .crs1, w | .crs2, w => Instruction.compressed w

/-- A consumer's use of an accessor: "caller must check `compressed()`/`standard()` first" (R14, R94), and
a use for the wrong width is refused (D5). -/
def Accessor.use (a : Accessor) (w : Instruction) : Except Refusal Value :=
  if a.meaningful w then .ok (a.value w) else .error (.wrongWidthAccessor a)

/-- Accessors with their values, as the consumer records them. -/
def applyAccessors (as : List Accessor) (w : Instruction) : List (Accessor × Value) :=
  as.map (fun a => (a, a.value w))

/-- Every standard accessor: the row STANDARD_32 (R61, R62 to R66). -/
def standardAccessors : List Accessor :=
  [.opcode, .rd, .funct3, .rs1, .rs2, .funct7, .iImmediate, .sImmediate, .bImmediate, .uImmediate, .jImmediate]

/-- Every compressed accessor: the rows COMPRESSED_Q0 to COMPRESSED_Q2 (R67, R68). -/
def compressedAccessors : List Accessor :=
  [.op, .compressedRs2, .compressedRs1, .crs2, .crs1,
   .compressedFunct2, .compressedFunct3, .compressedFunct4, .compressedFunct6]

/-- The accessors a consumer applies to a word of a format: the opcode it chose the format by (R79), then
the fields of the opcode table's rows. -/
def Format.accessors : Format → List Accessor
  | .r => [.opcode, .rd, .funct3, .rs1, .rs2, .funct7]
  | .i => [.opcode, .rd, .funct3, .rs1, .iImmediate]
  | .s => [.opcode, .funct3, .rs1, .rs2, .sImmediate]
  | .b => [.opcode, .funct3, .rs1, .rs2, .bImmediate]
  | .u => [.opcode, .rd, .uImmediate]
  | .j => [.opcode, .rd, .jImmediate]

/-- OP-IMM: the I fields, and `funct7` and `rs2`, which its shifts use (R72, R105). -/
def opImmAccessors : List Accessor := Format.accessors .i ++ [.funct7, .rs2]

/-- The immediate decoder of a format (R72); the R format has none. -/
def Format.immediate : Format → Instruction → Option (BitVec 32)
  | .r, _ => none
  | .i, w => some (Instruction.iImmediate w)
  | .s, w => some (Instruction.sImmediate w)
  | .b, w => some (Instruction.bImmediate w)
  | .u, w => some (Instruction.uImmediate w)
  | .j, w => some (Instruction.jImmediate w)

end Sys2Proof
end

