-- ==== Sys2Proof/Machine/Ops.lean ====
section
/-! DEFINITION. The named operations: memory, the Addressable contract (spec/20_memory.md), the Hart
contract (R25 to R27, R34), and the fetch loop's fetch and record (spec/95_test_vectors.md section 3).
There is no trap entry and no trap return to share (R158, R159): a failed write gives its Cause to its
caller (R156), and nothing else raises one (R155). -/

namespace Sys2Proof.Machine

/-- The canonical form: addresses strictly rising. No entry can equal what an unlisted address reads as,
because that is not a fixed value (`Bus.byteAt`). -/
abbrev Memory.wf (m : Memory) : Prop := m.Pairwise (fun c d => c.1 < d.1)

/-- The listed byte at an address, if it is listed. -/
def Memory.get : Memory → Nat → Option Byte
  | [], _ => none
  | (k, v) :: m, a => if a = k then some v else Memory.get m a

/-- List a byte. -/
def Memory.set : Memory → Nat → Byte → Memory
  | [], a, b => [(a, b)]
  | (k, v) :: m, a, b =>
    if a < k then (a, b) :: (k, v) :: m else if a = k then (a, b) :: m else (k, v) :: Memory.set m a b

/-- Make an address unlisted. -/
def Memory.erase (m : Memory) (a : Nat) : Memory := m.filter (fun c => c.1 != a)

/-- List bytes from an address on; bytes past the top of the address space have no place. -/
def Memory.load (x : Xlen) : Memory → Nat → List Byte → Memory
  | m, _, [] => m
  | m, a, b :: bs => Memory.load x (if a < 2 ^ x.bits then Memory.set m a b else m) (a + 1) bs

/-- The value of bytes, the first the least significant (R46, D6). -/
def leNat : List Byte → Nat
  | [] => 0
  | b :: bs => b.toNat + 256 * leNat bs

/-- WHAT A READ'S BYTE `k` IS. A listed byte is its contents (R53, D12). A byte that is not listed, or that
lies past the top of the address space, is `busRead`'s for this call: free, and allowed to depend on the
address, the width and the history (R41, R50, D8, D9). -/
def Bus.byteAt (p : Params) {x : Xlen} (bus : Bus x) (addr : Addr x) (w : Width) (k : Nat) : Byte :=
  match (if addr.toNat + k < 2 ^ x.bits then Memory.get bus.mem (addr.toNat + k) else none) with
  | some v => v
  | none => (p.busRead x addr w bus.log).extractLsb' (8 * k) 8

/-- The value of a read: byte `a + k` is bits [8k+7:8k] (R46). -/
def Bus.readValue (p : Params) {x : Xlen} (bus : Bus x) (addr : Addr x) (w : Width) : BitVec w.bits :=
  BitVec.ofNat w.bits (leNat ((List.range w.bytes).map (Bus.byteAt p bus addr w)))

/-- A read call (R41): it always gives a value, never a Cause, and it counts in the history (D9). -/
def Bus.read (p : Params) {x : Xlen} (bus : Bus x) (addr : Addr x) (w : Width) : BitVec w.bits × Bus x :=
  (Bus.readValue p bus addr w, { bus with log := .read addr w (Bus.readValue p bus addr w) :: bus.log })

/-- `read_u8` (R41). -/
def Bus.readU8 (p : Params) {x : Xlen} (bus : Bus x) (addr : Addr x) : BitVec 8 × Bus x := Bus.read p bus addr .w8
/-- `read_u16` (R41). -/
def Bus.readU16 (p : Params) {x : Xlen} (bus : Bus x) (addr : Addr x) : BitVec 16 × Bus x := Bus.read p bus addr .w16
/-- `read_u32` (R41). -/
def Bus.readU32 (p : Params) {x : Xlen} (bus : Bus x) (addr : Addr x) : BitVec 32 × Bus x := Bus.read p bus addr .w32
/-- `read_u64` (R41). -/
def Bus.readU64 (p : Params) {x : Xlen} (bus : Bus x) (addr : Addr x) : BitVec 64 × Bus x := Bus.read p bus addr .w64

/-- The exception of a failed write (R43, R149, R150, D10): misaligned gives code 6, out of range and
unmapped give code 7. -/
def writeException : WriteOutcome → Option ExceptionCode
  | .ok => none
  | .misaligned => some .storeMisaligned
  | .outOfRange => some .storeFault
  | .unmapped => some .storeFault

/-- What the caller of a write is given (R42). -/
def writeResult (x : Xlen) (o : WriteOutcome) : WriteResult x :=
  match writeException o with
  | none => .ok
  | some e => .err (Cause.ofException x e)

/-- Memory after byte `k` of a write. An `Ok` write's byte is listed if it has a place there and the place
is memory and not a device (R53). Any other byte of a write is unlisted, so that it reads as anything:
after `Err` because the source does not say what was written (R42, U4), past the top because nothing says
where it goes (N21). -/
def writeByte (p : Params) (x : Xlen) (landed : Bool) (m : Memory) (a : Nat) (b : Byte) : Memory :=
  if landed && a < 2 ^ x.bits && !p.isDevice x a then Memory.set m a b else Memory.erase m (a % 2 ^ x.bits)

/-- Memory after the bytes of a write from byte `k` on. -/
def writeBytes (p : Params) (x : Xlen) (landed : Bool) : Memory → Nat → List Byte → Memory
  | m, _, [] => m
  | m, a, b :: bs => writeBytes p x landed (writeByte p x landed m a b) (a + 1) bs

/-- The bytes of a value, the least significant first (R46, D6). -/
def leBytes (w : Width) (v : BitVec w.bits) : List Byte :=
  (List.range w.bytes).map (fun k => v.extractLsb' (8 * k) 8)

/-- A write call (R42): one indivisible step (R49), whose outcome is `busWrite`'s. -/
def Bus.write (p : Params) {x : Xlen} (bus : Bus x) (addr : Addr x) (w : Width) (v : BitVec w.bits) :
    WriteResult x × Bus x :=
  let o := p.busWrite x addr w v bus.log
  (writeResult x o,
    { mem := writeBytes p x (o == .ok) bus.mem addr.toNat (leBytes w v),
      log := .write addr w v (writeResult x o) :: bus.log })

/-- `write_u8` (R42). -/
def Bus.writeU8 (p : Params) {x : Xlen} (bus : Bus x) (addr : Addr x) (v : BitVec 8) := Bus.write p bus addr .w8 v
/-- `write_u16` (R42). -/
def Bus.writeU16 (p : Params) {x : Xlen} (bus : Bus x) (addr : Addr x) (v : BitVec 16) := Bus.write p bus addr .w16 v
/-- `write_u32` (R42). -/
def Bus.writeU32 (p : Params) {x : Xlen} (bus : Bus x) (addr : Addr x) (v : BitVec 32) := Bus.write p bus addr .w32 v
/-- `write_u64` (R42). -/
def Bus.writeU64 (p : Params) {x : Xlen} (bus : Bus x) (addr : Addr x) (v : BitVec 64) := Bus.write p bus addr .w64 v

/-- The Cause a call gave back, if it was a failed write: the only Causes that flow from the bus (R156). -/
def callCause {x : Xlen} : BusCall x → Option (Cause x)
  | .read _ _ _ => none
  | .write _ _ _ .ok => none
  | .write _ _ _ (.err c) => some c

/-- The Causes that have flowed back to the execution core, newest first (R156). -/
def Bus.reportedCauses {x : Xlen} (bus : Bus x) : List (Cause x) := bus.log.filterMap callCause

/-- `load_register(r)` (R26): never fails; the value is `hartRegs`' of the history of stores (R27). -/
def Hart.loadRegister (p : Params) {x : Xlen} (h : Hart x) (r : Register) : XWord x := p.hartRegs x h.regStores r

/-- `store_register(r, v)` (R26): never fails; one more store in the history. -/
def Hart.storeRegister {x : Xlen} (h : Hart x) (r : Register) (v : XWord x) : Hart x :=
  { h with regStores := { reg := r, value := v } :: h.regStores }

/-- The Hart after a contract call of the execution core (R25, R26). -/
def State.withHart (s : State) (h : Hart s.xlen) : State := { s with hart := h }

/-- `bus()` (R34) is mutable access to the Hart's Addressable: the state after a call on it, which touches
nothing else of the Hart. -/
def State.withBus (s : State) (b : Bus s.xlen) : State := s.withHart { s.hart with bus := b }

/-- The fetch of the fetch loop: both parcels are read, at the fetch position and one parcel further, and
given to `from_parcels` (R45, R91). -/
def State.fetch (p : Params) (s : State) : (Instruction × Bool) × State :=
  let first := Bus.readU16 p s.hart.bus s.pc
  let second := Bus.readU16 p first.2 (nextAddress p s.pc 2)
  (Instruction.fromParcels first.1 second.1, s.withBus second.2)

/-- The record and the advance of the fetch loop: the entry is recorded and the fetch position moves by
the flag (R29, R91, R175). The format's immediate, if any, is widened to XLEN (R117). -/
def State.retire (s : State) (w : Instruction) (flag : Bool) (as : List Accessor) (imm : Option (BitVec 32)) : State :=
  { s with
    pc := nextAddress Config.params s.pc (advanceBytes flag),
    record :=
      { addr := s.pc, inst := w, flag := flag, applied := applyAccessors as w,
        immediate := imm.map (widenImmediate s.xlen) } :: s.record }

/-- A byte image placed on the bus from outside (spec/95_test_vectors.md section 3, "Start state"). -/
def State.loadImage (s : State) (base : Nat) (bytes : List Byte) : State :=
  s.withBus { s.hart.bus with mem := Memory.load s.xlen s.hart.bus.mem base bytes }

end Sys2Proof.Machine
end

