-- ==== Sys2Proof/Machine/IFormat.lean ====
section
/-! DEFINITION. The meanings of the major-opcode rows of the I format (R72): the consumer applies the I fields and the
I-type decoder. The block orders, loads and jumps nothing (R5, R54, R71). -/

namespace Sys2Proof.Machine

/-- LOAD: I, R111. -/
def execLoad (rd : Register) (f3 : BitVec 3) (rs1 : Register) (imm : BitVec 32) (s : State) : Host.Outcome State Fault Refusal :=
  let w := encode (.load rd f3 rs1 imm)
  .next (s.retire w false (Format.accessors .i) (Format.immediate .i w))

/-- MISC-MEM: I, R111; nothing is ordered (R54, D13). -/
def execMiscMem (rd : Register) (f3 : BitVec 3) (rs1 : Register) (imm : BitVec 32) (s : State) : Host.Outcome State Fault Refusal :=
  let w := encode (.miscMem rd f3 rs1 imm)
  .next (s.retire w false (Format.accessors .i) (Format.immediate .i w))

/-- OP-IMM: I, R111; shifts use funct7 and rs2 as shift amount (R72, R105). -/
def execOpImm (rd : Register) (f3 : BitVec 3) (rs1 : Register) (imm : BitVec 32) (s : State) : Host.Outcome State Fault Refusal :=
  let w := encode (.opImm rd f3 rs1 imm)
  .next (s.retire w false opImmAccessors (Format.immediate .i w))

/-- OP-IMM-32: I, R111. -/
def execOpImm32 (rd : Register) (f3 : BitVec 3) (rs1 : Register) (imm : BitVec 32) (s : State) : Host.Outcome State Fault Refusal :=
  let w := encode (.opImm32 rd f3 rs1 imm)
  .next (s.retire w false (Format.accessors .i) (Format.immediate .i w))

/-- JALR: I, R111. -/
def execJalr (rd : Register) (f3 : BitVec 3) (rs1 : Register) (imm : BitVec 32) (s : State) : Host.Outcome State Fault Refusal :=
  let w := encode (.jalr rd f3 rs1 imm)
  .next (s.retire w false (Format.accessors .i) (Format.immediate .i w))

/-- SYSTEM: I, R111; no Cause is raised (R155). -/
def execSystem (rd : Register) (f3 : BitVec 3) (rs1 : Register) (imm : BitVec 32) (s : State) : Host.Outcome State Fault Refusal :=
  let w := encode (.system rd f3 rs1 imm)
  .next (s.retire w false (Format.accessors .i) (Format.immediate .i w))

end Sys2Proof.Machine
end

