-- ==== Sys2Proof/Machine/LengthClasses.lean ====
section
/-! DEFINITION. The meanings of the four normative rows of the opcode table, the length classes (R60, R71):
the block returns every accessor of the class. -/

namespace Sys2Proof.Machine

/-- STANDARD_32 (R61 to R66, R93). -/
def execStandard32 (opcode : BitVec 7) (rd : Register) (f3 : BitVec 3) (rs1 rs2 : Register) (f7 : BitVec 7)
    (s : State) : Host.Outcome State Fault Refusal :=
  .next (s.retire (encode (.standard32 opcode rd f3 rs1 rs2 f7)) false standardAccessors none)

/-- COMPRESSED_Q0 (R67, R68, R92). -/
def execCompressedQ0 (f4 : BitVec 4) (rs1 rs2 : Register) (s : State) : Host.Outcome State Fault Refusal :=
  .next (s.retire (encode (.compressedQ0 f4 rs1 rs2)) true compressedAccessors none)

/-- COMPRESSED_Q1 (R67, R68, R92). -/
def execCompressedQ1 (f4 : BitVec 4) (rs1 rs2 : Register) (s : State) : Host.Outcome State Fault Refusal :=
  .next (s.retire (encode (.compressedQ1 f4 rs1 rs2)) true compressedAccessors none)

/-- COMPRESSED_Q2 (R67, R68, R92). -/
def execCompressedQ2 (f4 : BitVec 4) (rs1 rs2 : Register) (s : State) : Host.Outcome State Fault Refusal :=
  .next (s.retire (encode (.compressedQ2 f4 rs1 rs2)) true compressedAccessors none)

end Sys2Proof.Machine
end

