-- ==== Sys2Proof/Machine/TwoSourceFormats.lean ====
section
/-! DEFINITION. The meanings of the major-opcode rows of the R, S and B formats (R72): the consumer applies the two
source registers and, for S and B, the immediate decoder. The block computes, stores and branches nothing
(R5, R71, R118). -/

namespace Sys2Proof.Machine

/-- OP: R, no immediate. -/
def execOp (rd : Register) (f3 : BitVec 3) (rs1 rs2 : Register) (f7 : BitVec 7) (s : State) : Host.Outcome State Fault Refusal :=
  let w := encode (.op rd f3 rs1 rs2 f7)
  .next (s.retire w false (Format.accessors .r) (Format.immediate .r w))

/-- OP-32: R, no immediate. -/
def execOp32 (rd : Register) (f3 : BitVec 3) (rs1 rs2 : Register) (f7 : BitVec 7) (s : State) : Host.Outcome State Fault Refusal :=
  let w := encode (.op32 rd f3 rs1 rs2 f7)
  .next (s.retire w false (Format.accessors .r) (Format.immediate .r w))

/-- STORE: S, R112. -/
def execStore (f3 : BitVec 3) (rs1 rs2 : Register) (imm : BitVec 32) (s : State) : Host.Outcome State Fault Refusal :=
  let w := encode (.store f3 rs1 rs2 imm)
  .next (s.retire w false (Format.accessors .s) (Format.immediate .s w))

/-- BRANCH: B, R113. -/
def execBranch (f3 : BitVec 3) (rs1 rs2 : Register) (imm : BitVec 32) (s : State) : Host.Outcome State Fault Refusal :=
  let w := encode (.branch f3 rs1 rs2 imm)
  .next (s.retire w false (Format.accessors .b) (Format.immediate .b w))

end Sys2Proof.Machine
end

