-- ==== Sys2Proof/Machine/UpperFormats.lean ====
section
/-! DEFINITION. The meanings of the major-opcode rows of the U and J formats (R72): the consumer applies `rd` and the
immediate decoder. The block computes no pc-relative result (R118). -/

namespace Sys2Proof.Machine

/-- AUIPC: U, R114. -/
def execAuipc (rd : Register) (imm : BitVec 32) (s : State) : Host.Outcome State Fault Refusal :=
  let w := encode (.auipc rd imm)
  .next (s.retire w false (Format.accessors .u) (Format.immediate .u w))

/-- LUI: U, R114. -/
def execLui (rd : Register) (imm : BitVec 32) (s : State) : Host.Outcome State Fault Refusal :=
  let w := encode (.lui rd imm)
  .next (s.retire w false (Format.accessors .u) (Format.immediate .u w))

/-- JAL: J, R115. -/
def execJal (rd : Register) (imm : BitVec 32) (s : State) : Host.Outcome State Fault Refusal :=
  let w := encode (.jal rd imm)
  .next (s.retire w false (Format.accessors .j) (Format.immediate .j w))

end Sys2Proof.Machine
end

