-- ==== Sys2Proof/Machine/Dispatch.lean ====
section
/-! DEFINITION. What each instruction does: one call of its meaning an arm. -/

namespace Sys2Proof.Machine

/-- The effect of one instruction on the state in which it has been fetched. Which encodings a consumer treats
as illegal is OPEN (R145, N16, U13, D16); that this one treats none so and goes on over every word is a DESIGN
CHOICE, notes/assumptions/22.md. -/
def exec (i : Instr) (s : State) : Host.Outcome State Fault Refusal :=
  match i with
  | .standard32 opcode rd f3 rs1 rs2 f7 => Sys2Proof.Machine.execStandard32 opcode rd f3 rs1 rs2 f7 s
  | .compressedQ0 f4 rs1 rs2 => Sys2Proof.Machine.execCompressedQ0 f4 rs1 rs2 s
  | .compressedQ1 f4 rs1 rs2 => Sys2Proof.Machine.execCompressedQ1 f4 rs1 rs2 s
  | .compressedQ2 f4 rs1 rs2 => Sys2Proof.Machine.execCompressedQ2 f4 rs1 rs2 s
  | .load rd f3 rs1 imm => Sys2Proof.Machine.execLoad rd f3 rs1 imm s
  | .miscMem rd f3 rs1 imm => Sys2Proof.Machine.execMiscMem rd f3 rs1 imm s
  | .opImm rd f3 rs1 imm => Sys2Proof.Machine.execOpImm rd f3 rs1 imm s
  | .auipc rd imm => Sys2Proof.Machine.execAuipc rd imm s
  | .opImm32 rd f3 rs1 imm => Sys2Proof.Machine.execOpImm32 rd f3 rs1 imm s
  | .store f3 rs1 rs2 imm => Sys2Proof.Machine.execStore f3 rs1 rs2 imm s
  | .op rd f3 rs1 rs2 f7 => Sys2Proof.Machine.execOp rd f3 rs1 rs2 f7 s
  | .lui rd imm => Sys2Proof.Machine.execLui rd imm s
  | .op32 rd f3 rs1 rs2 f7 => Sys2Proof.Machine.execOp32 rd f3 rs1 rs2 f7 s
  | .branch f3 rs1 rs2 imm => Sys2Proof.Machine.execBranch f3 rs1 rs2 imm s
  | .jalr rd f3 rs1 imm => Sys2Proof.Machine.execJalr rd f3 rs1 imm s
  | .jal rd imm => Sys2Proof.Machine.execJal rd imm s
  | .system rd f3 rs1 imm => Sys2Proof.Machine.execSystem rd f3 rs1 imm s

end Sys2Proof.Machine
end

