-- ==== Sys2Proof/Machine/Step.lean ====
section
/-! DEFINITION. One turn of the fetch loop of spec/95_test_vectors.md section 3: read two parcels, build the
Instruction, decode it, run it. -/

namespace Sys2Proof.Machine

/-- One step: fetch at the fetch position, decode, and `exec` in the state the two reads left. -/
def step (s : State) : Host.Outcome State Fault Refusal :=
  let f := s.fetch Config.params
  exec (decodeInstruction f.1.1) f.2

/-- The state in which the next step fetches these bits: the four bytes are placed at the fetch position.
Where they would not fit below the top of the address space the fetch position moves to 0. -/
def State.withFetchWord (s : State) (nbits w : Nat) : State :=
  let s' := if s.pc.toNat + 4 ≤ 2 ^ s.xlen.bits then s else { s with pc := 0 }
  s'.loadImage s'.pc.toNat (bytesOfWord (tableWord nbits w))

end Sys2Proof.Machine
end

