-- ==== Sys2Proof/Safety.lean ====
section
/-! DEFINITION. What claims are stated in terms of: the machine's invariant, and never stopping. -/

namespace Sys2Proof.Machine

/-- The bus is in canonical form and lists only addresses that exist (R40). -/
def Bus.Canonical {x : Xlen} (bus : Bus x) : Prop := bus.mem.wf ∧ ∀ c ∈ bus.mem, c.1 < 2 ^ x.bits

/-- A record the fetch loop may hold: its address is an instruction address (R47), its flag is the length
class's (R60, R91), a compressed backing value has its upper half zero (R69), and every accessor the
consumer applied has a meaning for that width and was given the block's output (R94, R173). -/
structure Entry.Sound {x : Xlen} (e : Entry x) : Prop where
  aligned : e.addr.getLsbD 0 = false
  flag : e.flag = Instruction.compressed e.inst
  upperZero : e.flag = true → e.inst.extractLsb' 16 16 = 0#16
  applied : ∀ av ∈ e.applied, Accessor.use av.1 e.inst = .ok av.2

/-- The records are consecutive instructions, the newest ending where the fetch position `pc` stands: each
next instruction starts where its predecessor's parcels end (R47, R91, R175). -/
def Consecutive {x : Xlen} (pc : Addr x) : List (Entry x) → Prop
  | [] => True
  | e :: es => pc = nextAddress Config.params e.addr (advanceBytes e.flag) ∧ Consecutive e.addr es

/-- The invariant of the machine. -/
structure State.Inv (s : State) : Prop where
  canonical : s.hart.bus.Canonical
  aligned : s.pc.getLsbD 0 = false
  sound : ∀ e ∈ s.record, e.Sound
  consecutive : Consecutive s.pc s.record

/-- However many steps are taken, none is a fault or a refusal. -/
def State.NeverStops (s : State) : Prop := ∀ k, ∃ t, Host.Core.run Sys2Proof.core k s = .next t

/-- The bytes stand listed on the bus from an address on. -/
def Bus.Holds {x : Xlen} (bus : Bus x) (a : Nat) : List Byte → Prop
  | [] => True
  | b :: bs => Memory.get bus.mem a = some b ∧ Bus.Holds bus (a + 1) bs

end Sys2Proof.Machine
end

