-- ==== Sys2Proof/Certificates/Slice0/Obligations.lean ====
section
/-! DEFINITION. The statements for the provers. Each docstring names the rule it formalises; a statement that
rests on a decision of the spec or on a choice of the model says so. -/

namespace Sys2Proof.Machine

/-- The state after one turn of the fetch loop: one entry recorded, and the fetch position moved `n` bytes. -/
def State.recorded (s : State) (n : Nat) (e : Entry s.xlen) : State :=
  { s with pc := nextAddress Config.params s.pc n, record := e :: s.record }

/-- The fields every I-format consumer applies, from the operands. -/
def iFields (m : MajorOpcode) (rd : Register) (f3 : BitVec 3) (rs1 : Register) (imm : BitVec 32) :
    List (Accessor × Value) :=
  [(.opcode, .u8 (m.code.setWidth 8)), (.rd, .register rd), (.funct3, .u8 (f3.setWidth 8)),
    (.rs1, .register rs1), (.iImmediate, .u32 imm)]

/-- The fields a compressed word gives, from `funct4` = w[15:12], `rs1` = w[11:7], `rs2` = w[6:2] and
`op` = w[1:0]. -/
def compressedFields (op : BitVec 2) (f4 : BitVec 4) (rs1 rs2 : Register) : List (Accessor × Value) :=
  [(.op, .u8 (op.setWidth 8)), (.compressedRs2, .register rs2), (.compressedRs1, .register rs1),
    (.crs2, .register (Register.abbreviated (BitVec.ofNat 3 rs2.val))),
    (.crs1, .register (Register.abbreviated (BitVec.ofNat 3 rs1.val))),
    (.compressedFunct2, .u8 (BitVec.ofNat 8 (rs2.val / 8))), (.compressedFunct3, .u8 (BitVec.ofNat 8 (f4.toNat / 2))),
    (.compressedFunct4, .u8 (f4.setWidth 8)), (.compressedFunct6, .u8 (BitVec.ofNat 8 (4 * f4.toNat + rs1.val / 8)))]

/-- The five immediates of an R layout's fields (R62 to R66), in the order I, S, B, U, J. -/
def immediateFields (rd : Register) (f3 : BitVec 3) (rs1 rs2 : Register) (f7 : BitVec 7) : List (Accessor × Value) :=
  [(.iImmediate, .u32 ((f7 ++ rs2.toField).signExtend 32)),
    (.sImmediate, .u32 ((f7 ++ rd.toField).signExtend 32)),
    (.bImmediate, .u32 ((f7.extractLsb' 6 1 ++ rd.toField.extractLsb' 0 1 ++ f7.extractLsb' 0 6
      ++ rd.toField.extractLsb' 1 4 ++ 0#1).signExtend 32)),
    (.uImmediate, .u32 (f7 ++ rs2.toField ++ rs1.toField ++ f3 ++ 0#12)),
    (.jImmediate, .u32 ((f7.extractLsb' 6 1 ++ rs1.toField ++ f3 ++ rs2.toField.extractLsb' 0 1
      ++ f7.extractLsb' 0 6 ++ rs2.toField.extractLsb' 1 4 ++ 0#1).signExtend 32))]

end Sys2Proof.Machine

open Sys2Proof Sys2Proof.Machine

/-! ### Length classes and construction -/

/-- R60, R92, R93: the low two bits alone decide, for every 32-bit word, and exactly one of the two tests is
true. -/
def Obligations.LengthClassesAreExclusiveAndExhaustive : Prop :=
  ∀ w : Instruction,
    (Instruction.standard w = true ↔ w.toNat % 4 = 3) ∧ (Instruction.compressed w = true ↔ w.toNat % 4 ≠ 3) ∧
    (Instruction.standard w = !Instruction.compressed w) ∧
    (Instruction.lengthClass w = .standard32 ↔ w.toNat % 4 = 3) ∧
    (Instruction.lengthClass w = .compressedQ0 ↔ w.toNat % 4 = 0) ∧
    (Instruction.lengthClass w = .compressedQ1 ↔ w.toNat % 4 = 1) ∧
    (Instruction.lengthClass w = .compressedQ2 ↔ w.toNat % 4 = 2)

/-- R91: a first parcel whose low two bits are not 0b11 gives its zero extension and `true`, whatever the
second parcel; any other gives both parcels, the first low, and `false`. -/
def Obligations.FromParcelsBuildsByTheFirstParcel : Prop :=
  ∀ p0 p1 : Parcel,
    (p0.toNat % 4 ≠ 3 → (Instruction.fromParcels p0 p1).1.toNat = p0.toNat ∧ (Instruction.fromParcels p0 p1).2 = true) ∧
    (p0.toNat % 4 = 3 → (Instruction.fromParcels p0 p1).1.toNat = p1.toNat * 2 ^ 16 + p0.toNat ∧
      (Instruction.fromParcels p0 p1).2 = false)

/-- R69: no compressed accessor reads bits [31:16], and `new` keeps them. -/
def Obligations.CompressedAccessorsReadOnlyTheLowHalf : Prop :=
  (∀ w w' : Instruction, w.extractLsb' 0 16 = w'.extractLsb' 0 16 →
    ∀ a ∈ compressedAccessors, a.value w = a.value w') ∧
  ∀ w : BitVec 32, (Instruction.new w).extractLsb' 16 16 = w.extractLsb' 16 16

/-! ### Fields -/

/-- R100 to R105: each standard field is the unsigned value of its bits, for every word. -/
def Obligations.StandardFieldsAreTheirBits : Prop :=
  ∀ w : Instruction,
    (Instruction.opcode w).toNat = w.toNat % 2 ^ 7 ∧ (Instruction.rd w).val = w.toNat / 2 ^ 7 % 2 ^ 5 ∧
    (Instruction.funct3 w).toNat = w.toNat / 2 ^ 12 % 2 ^ 3 ∧ (Instruction.rs1 w).val = w.toNat / 2 ^ 15 % 2 ^ 5 ∧
    (Instruction.rs2 w).val = w.toNat / 2 ^ 20 % 2 ^ 5 ∧ (Instruction.funct7 w).toNat = w.toNat / 2 ^ 25

/-- R120, R125 to R129: `op`, the full register fields, and the abbreviated ones, which are the raw value
plus 8 and so name X8 to X15. -/
def Obligations.CompressedRegistersAreTheirBits : Prop :=
  ∀ w : Instruction,
    (Instruction.op w).toNat = w.toNat % 2 ^ 2 ∧ (Instruction.compressedRs1 w).val = w.toNat / 2 ^ 7 % 2 ^ 5 ∧
    (Instruction.compressedRs2 w).val = w.toNat / 2 ^ 2 % 2 ^ 5 ∧
    (Instruction.crs1 w).val = w.toNat / 2 ^ 7 % 2 ^ 3 + 8 ∧ (Instruction.crs2 w).val = w.toNat / 2 ^ 2 % 2 ^ 3 + 8 ∧
    8 ≤ (Instruction.crs1 w).val ∧ (Instruction.crs1 w).val ≤ 15 ∧
    8 ≤ (Instruction.crs2 w).val ∧ (Instruction.crs2 w).val ≤ 15

/-- R121 to R124 with the positions of decision D3 (general knowledge, not the source's: log entry 7), and the
relations R122 draws from them. -/
def Obligations.CompressedFunctsAreTheirBits : Prop :=
  ∀ w : Instruction,
    (Instruction.compressedFunct2 w).toNat = w.toNat / 2 ^ 5 % 2 ^ 2 ∧
    (Instruction.compressedFunct3 w).toNat = w.toNat / 2 ^ 13 % 2 ^ 3 ∧
    (Instruction.compressedFunct4 w).toNat = w.toNat / 2 ^ 12 % 2 ^ 4 ∧
    (Instruction.compressedFunct6 w).toNat = w.toNat / 2 ^ 10 % 2 ^ 6 ∧
    Instruction.compressedFunct3 w = Instruction.compressedFunct4 w >>> 1 ∧
    Instruction.compressedFunct3 w = Instruction.compressedFunct6 w >>> 3

/-! ### Immediates -/

/-- R111: the shift form equals the sign-extended layout. -/
def Obligations.IImmediateIsItsSignExtendedField : Prop :=
  ∀ w : Instruction, Instruction.iImmediate w = (w.extractLsb' 20 12).signExtend 32

/-- R112: the shift-and-mask form equals the sign-extended layout. -/
def Obligations.SImmediateIsItsSignExtendedFields : Prop :=
  ∀ w : Instruction, Instruction.sImmediate w = (w.extractLsb' 25 7 ++ w.extractLsb' 7 5).signExtend 32

/-- R113: the scatter equals the sign-extended layout, bit 12 included and bit 0 zero. -/
def Obligations.BImmediateIsItsSignExtendedFields : Prop :=
  ∀ w : Instruction, Instruction.bImmediate w =
    (w.extractLsb' 31 1 ++ w.extractLsb' 7 1 ++ w.extractLsb' 25 6 ++ w.extractLsb' 8 4 ++ 0#1).signExtend 32

/-- R114: the top 20 bits stay in place and the low 12 are zero. -/
def Obligations.UImmediateIsItsUpperField : Prop :=
  ∀ w : Instruction, Instruction.uImmediate w = w.extractLsb' 12 20 ++ 0#12 ∧
    (Instruction.uImmediate w).toNat = w.toNat / 2 ^ 12 * 2 ^ 12

/-- R115 with decision D4 (the mask keeps bit 20; no fixture proves it: log entry 8): the scatter equals the
sign-extended layout. -/
def Obligations.JImmediateIsItsSignExtendedFields : Prop :=
  ∀ w : Instruction, Instruction.jImmediate w =
    (w.extractLsb' 31 1 ++ w.extractLsb' 12 8 ++ w.extractLsb' 20 1 ++ w.extractLsb' 21 10 ++ 0#1).signExtend 32

/-- R116 (derived there; J by D4, log entry 8): from the immediate's sign position up, every bit is w[31]; the U
result's bit 31 is w[31]. -/
def Obligations.ImmediateUpperBitsCopyTheSign : Prop :=
  ∀ w : Instruction,
    (∀ k, 11 ≤ k → k < 32 → (Instruction.iImmediate w).getLsbD k = w.getLsbD 31) ∧
    (∀ k, 11 ≤ k → k < 32 → (Instruction.sImmediate w).getLsbD k = w.getLsbD 31) ∧
    (∀ k, 12 ≤ k → k < 32 → (Instruction.bImmediate w).getLsbD k = w.getLsbD 31) ∧
    (∀ k, 20 ≤ k → k < 32 → (Instruction.jImmediate w).getLsbD k = w.getLsbD 31) ∧
    (Instruction.uImmediate w).getLsbD 31 = w.getLsbD 31

/-- The ranges and the evenness in R111 to R115 and R118. The J range -1048576 to 1048574 is R115's with
decision D4, that the mask keeps bit 20, which no fixture proves (log entry 8). -/
def Obligations.ImmediatesStayInTheirRanges : Prop :=
  ∀ w : Instruction,
    (-2048 ≤ (Instruction.iImmediate w).toInt ∧ (Instruction.iImmediate w).toInt ≤ 2047) ∧
    (-2048 ≤ (Instruction.sImmediate w).toInt ∧ (Instruction.sImmediate w).toInt ≤ 2047) ∧
    (-4096 ≤ (Instruction.bImmediate w).toInt ∧ (Instruction.bImmediate w).toInt ≤ 4094) ∧
    (-1048576 ≤ (Instruction.jImmediate w).toInt ∧ (Instruction.jImmediate w).toInt ≤ 1048574) ∧
    (Instruction.bImmediate w).toNat % 2 = 0 ∧ (Instruction.jImmediate w).toNat % 2 = 0 ∧
    (Instruction.uImmediate w).toNat % 4096 = 0

/-- The corner cases of R111, R112 and R114 that name the bits an immediate never depends on. -/
def Obligations.ImmediatesIgnoreOtherFields : Prop :=
  ∀ w w' : Instruction,
    (w.extractLsb' 20 12 = w'.extractLsb' 20 12 → Instruction.iImmediate w = Instruction.iImmediate w') ∧
    (w.extractLsb' 25 7 = w'.extractLsb' 25 7 → w.extractLsb' 7 5 = w'.extractLsb' 7 5 →
      Instruction.sImmediate w = Instruction.sImmediate w' ∧ Instruction.bImmediate w = Instruction.bImmediate w') ∧
    (w.extractLsb' 12 20 = w'.extractLsb' 12 20 →
      Instruction.uImmediate w = Instruction.uImmediate w' ∧ Instruction.jImmediate w = Instruction.jImmediate w')

/-- R117 (decision D17, log entry 15): the architectural immediate keeps the signed value at either width. -/
def Obligations.WideningKeepsTheSignedValue : Prop :=
  ∀ (x : Xlen) (imm : BitVec 32), (widenImmediate x imm).toInt = imm.toInt

/-! ### Registers and Causes -/

/-- R130, R132, R133: `new` round-trips on 0 to 31 and answers nothing above, and a Register is its
number. -/
def Obligations.RegisterNewRoundTrips : Prop :=
  (∀ num : BitVec 8,
    (num.toNat ≤ 31 → ∃ r, Register.new num = some r ∧ Register.number r = num) ∧
    (31 < num.toNat → Register.new num = none)) ∧
  (∀ r : Register, Register.new (Register.number r) = some r ∧ (Register.number r).toNat = r.val) ∧
  ∀ r r' : Register, r = r' ↔ Register.number r = Register.number r'

/-- R140, R141: a Cause is an interrupt exactly when its top bit is set, whatever the other bits. -/
def Obligations.InterruptIsTheTopBit : Prop :=
  ∀ (x : Xlen) (c : Cause x), Cause.interrupt c = true ↔ 2 ^ (x.bits - 1) ≤ c.toNat

/-- R142 (decision D25, log entry 15): the code field is the value of the other bits, and a Cause is its two
fields (R140). -/
def Obligations.CauseIsItsInterruptBitAndCode : Prop :=
  ∀ (x : Xlen) (c : Cause x), (Cause.code c).toNat = c.toNat % 2 ^ (x.bits - 1) ∧
    c.toNat = (if Cause.interrupt c then 2 ^ (x.bits - 1) else 0) + (Cause.code c).toNat

/-- R140, R142 to R151, a Cause being built from its code by decision D25 (log entry 15): the eight codes are 0
to 7 in the order of R143 to R150, they have these numbers at both widths with the interrupt bit clear, and
what differs between the widths is where the interrupt bit stands: bit 31 at XLEN 32, bit 63 at XLEN 64. -/
def Obligations.ExceptionCodesAgreeAtBothWidths : Prop :=
  (∀ (x : Xlen) (e : ExceptionCode), (Cause.ofException x e).toNat = e.number ∧
    Cause.interrupt (Cause.ofException x e) = false ∧ Cause.exception (Cause.ofException x e) = some e) ∧
  ([.fetchMisaligned, .fetchFault, .illegalInstruction, .breakpoint, .loadMisaligned, .loadFault, .storeMisaligned,
    .storeFault] : List ExceptionCode).map ExceptionCode.number = [0, 1, 2, 3, 4, 5, 6, 7] ∧
  (∀ c : Cause .x32, Cause.interrupt c = c.getLsbD 31) ∧ ∀ c : Cause .x64, Cause.interrupt c = c.getLsbD 63

/-- R153, with the code of D25 (log entry 15): a Cause names an exception exactly when it is that exception's
value; none does with a code of 8 or more, and no interrupt does. -/
def Obligations.OnlyCodesBelowEightNameExceptions : Prop :=
  ∀ (x : Xlen) (c : Cause x), (∀ e, Cause.exception c = some e ↔ c = Cause.ofException x e) ∧
    (Cause.exception c = none ↔ 8 ≤ c.toNat)

/-! ### The Hart and the bus -/

/-- R26, R27 (decision D18; the form is log entry 10): storing to a register does nothing to the bus, and what a
load returns is a function of the history of stores and the index alone. -/
def Obligations.RegisterFileIsItsStoreHistory : Prop :=
  ∀ (p : Params) (x : Xlen) (h : Hart x) (r : Register) (v : XWord x),
    (Hart.storeRegister h r v).bus = h.bus ∧
    (∀ r', Hart.loadRegister p (Hart.storeRegister h r v) r' = p.hartRegs x ({ reg := r, value := v } :: h.regStores) r') ∧
    ∀ (b : Bus x) (r' : Register), Hart.loadRegister p { h with bus := b } r' = Hart.loadRegister p h r'

/-- R41 and R171 (decision D8; the form is log entries 4 and 10), for every width and fetch position: the reset
state holds a Hart that has done nothing; a read of it, of every width, is `busRead`'s value of no history,
and a register is `hartRegs`'. -/
def Obligations.ResetReadsAreTheOpenParameters : Prop :=
  ∀ (p : Params) (x : Xlen) (pc a : Addr x) (w : Width) (r : Register),
    State.resetAt x pc = { xlen := x, pc := pc, hart := Hart.reset x, record := [] } ∧
    (Bus.read p (Hart.reset x).bus a w).1 = p.busRead x a w [] ∧
    Hart.loadRegister p (Hart.reset x) r = p.hartRegs x [] r

/-- R53 and R46 (decisions D12 and D6: log entries 4 and 15). After an `Ok` write, byte by byte: a byte of the
write that lies below the top of the address space and is not a device's is what every later read that covers
it returns there, the lowest byte first, whatever becomes of the write's other bytes; a byte that is a
device's, or past the top (counted from 0 there: log entry 6), is not listed. Where all of it lands, a read of
the same width returns the value. -/
def Obligations.ReadSeesOwnOkWrite : Prop :=
  ∀ (p : Params) (x : Xlen) (bus : Bus x) (a : Addr x) (w : Width) (v : BitVec w.bits),
    p.busWrite x a w v bus.log = .ok →
    (Bus.write p bus a w v).1 = .ok ∧
    (∀ k < w.bytes, a.toNat + k < 2 ^ x.bits → p.isDevice x (a.toNat + k) = false →
      (Bus.readU8 p (Bus.write p bus a w v).2 (a + BitVec.ofNat x.bits k)).1 = v.extractLsb' (8 * k) 8 ∧
      ∀ (a' : Addr x) (w' : Width) (j : Nat), a'.toNat + j = a.toNat + k →
        Bus.byteAt p (Bus.write p bus a w v).2 a' w' j = v.extractLsb' (8 * k) 8) ∧
    (∀ k < w.bytes, 2 ^ x.bits ≤ a.toNat + k ∨ p.isDevice x (a.toNat + k) = true →
      Memory.get (Bus.write p bus a w v).2.mem ((a.toNat + k) % 2 ^ x.bits) = none) ∧
    (a.toNat + w.bytes ≤ 2 ^ x.bits → (∀ k < w.bytes, p.isDevice x (a.toNat + k) = false) →
      (Bus.read p (Bus.write p bus a w v).2 a w).1 = v)

/-- THE MODEL'S CHOICE, log entry 4 (no rule says it; R50 leaves a device's side effects open): whatever a
write's outcome, no listed byte but the write's own is touched. The bytes are those at the address and on,
past the top counted from 0 (log entry 6). -/
def Obligations.WriteLeavesOtherBytes : Prop :=
  ∀ (p : Params) (x : Xlen) (bus : Bus x) (a : Addr x) (w : Width) (v : BitVec w.bits) (a' : Nat),
    a' < 2 ^ x.bits → (∀ k < w.bytes, a' ≠ (a.toNat + k) % 2 ^ x.bits) →
    Memory.get (Bus.write p bus a w v).2.mem a' = Memory.get bus.mem a'

/-- R42, U4 (log entry 14): after a failed write no byte of the write is known. Each is unlisted, so any later
read that covers it returns `busRead`'s byte there, and a byte read returns `busRead`'s value. That the bytes
past the top of the address space are counted from 0 is THE MODEL'S CHOICE, log entry 6. -/
def Obligations.FailedWriteLeavesItsBytesOpen : Prop :=
  ∀ (p : Params) (x : Xlen) (bus : Bus x) (a : Addr x) (w : Width) (v : BitVec w.bits),
    p.busWrite x a w v bus.log ≠ .ok → ∀ k < w.bytes,
    Memory.get (Bus.write p bus a w v).2.mem ((a.toNat + k) % 2 ^ x.bits) = none ∧
    (∀ (a' : Addr x) (w' : Width) (j : Nat), a'.toNat + j = (a.toNat + k) % 2 ^ x.bits →
      Bus.byteAt p (Bus.write p bus a w v).2 a' w' j =
        (p.busRead x a' w' (Bus.write p bus a w v).2.log).extractLsb' (8 * j) 8) ∧
    (Bus.readU8 p (Bus.write p bus a w v).2 (BitVec.ofNat x.bits (a.toNat + k))).1 =
      p.busRead x (BitVec.ofNat x.bits (a.toNat + k)) .w8 (Bus.write p bus a w v).2.log

/-- R43, R149, R150 (decision D10, log entry 14): the Cause of a failed write is code 6 for a misaligned target
and code 7 for one that is out of range or unmapped, with the interrupt bit clear, and it is the one Cause the
call adds to those that have flowed back (R156). A read adds none (R41); that it leaves the listed bytes
unchanged is THE MODEL'S CHOICE, log entry 4 (R50 leaves its side effects open). -/
def Obligations.FailedWriteReportsItsCause : Prop :=
  ∀ (p : Params) (x : Xlen) (bus : Bus x) (a : Addr x) (w : Width) (v : BitVec w.bits),
    (p.busWrite x a w v bus.log = .misaligned →
      ∃ c : Cause x, c.toNat = 6 ∧ (Bus.write p bus a w v).1 = .err c ∧
        Bus.reportedCauses (Bus.write p bus a w v).2 = c :: Bus.reportedCauses bus) ∧
    (p.busWrite x a w v bus.log = .outOfRange ∨ p.busWrite x a w v bus.log = .unmapped →
      ∃ c : Cause x, c.toNat = 7 ∧ (Bus.write p bus a w v).1 = .err c ∧
        Bus.reportedCauses (Bus.write p bus a w v).2 = c :: Bus.reportedCauses bus) ∧
    (p.busWrite x a w v bus.log = .ok → (Bus.write p bus a w v).1 = .ok ∧
        Bus.reportedCauses (Bus.write p bus a w v).2 = Bus.reportedCauses bus) ∧
    Bus.reportedCauses (Bus.read p bus a w).2 = Bus.reportedCauses bus ∧ (Bus.read p bus a w).2.mem = bus.mem

/-! ### Encoding -/

/-- Some words of spec/95_test_vectors.md decode to the rows they stand for. -/
def Obligations.SpecWordsDecode : Prop :=
  decodeInstruction 0x4133d893 = .opImm 17 0b101 7 0x413 ∧ decodeInstruction 0x4d258fe7 = .jalr 31 0 11 1234 ∧
  decodeInstruction 0x7fbfafa3 = .store 0b010 31 27 0x7ff ∧ decodeInstruction 0xfe857ee3 = .branch 0b111 10 8 (-4) ∧
  decodeInstruction 0xdead47b7 = .lui 15 0xdead4000 ∧ decodeInstruction 0x2d5de3ef = .jal 7 0xdead4 ∧
  decodeInstruction 0x0000852e = .compressedQ2 0b1000 10 11

/-- Every well-formed instruction, of every row of the table and with every operand, is what its encoding
decodes to. -/
def Obligations.DecodeOfEncodeIsIdentity : Prop :=
  ∀ i : Instr, i.wf = true → decodeInstruction (encode i) = i

/-- No bit of a word is lost: a standard word is the encoding of what it decodes to, and a compressed one up
to the upper half it ignores (R69). -/
def Obligations.EncodeOfDecodeIsTheWord : Prop :=
  ∀ w : Instruction,
    (Instruction.standard w = true → encode (decodeInstruction w) = w) ∧
    (Instruction.compressed w = true → encode (decodeInstruction w) = (w.extractLsb' 0 16).setWidth 32)

/-- R60, R71, R73, R74: every word is accepted, and what it decodes to is well-formed and of the word's length class,
of which R71 lists four (decision D30): a compressed word of one of the three quadrants decodes to that quadrant's
row, and a standard word to a row of four bytes. -/
def Obligations.DecodedInstructionsAreWellFormed : Prop :=
  ∀ w : Instruction, (decodeInstruction w).wf = true ∧
    (decodeInstruction w).isCompressed = Instruction.compressed w ∧
    (Instruction.lengthClass w = .compressedQ0 ↔ ∃ f4 rs1 rs2, decodeInstruction w = .compressedQ0 f4 rs1 rs2) ∧
    (Instruction.lengthClass w = .compressedQ1 ↔ ∃ f4 rs1 rs2, decodeInstruction w = .compressedQ1 f4 rs1 rs2) ∧
    (Instruction.lengthClass w = .compressedQ2 ↔ ∃ f4 rs1 rs2, decodeInstruction w = .compressedQ2 f4 rs1 rs2) ∧
    (Instruction.lengthClass w = .standard32 ↔ (decodeInstruction w).isCompressed = false)

/-- A word decodes to the row of the opcode table it matches: it matches that row, and where it matches a
major-opcode row, that row is the one (log entry 1 puts those before STANDARD_32: the model's choice). -/
def Obligations.DecodeFollowsTheOpcodeTable : Prop :=
  ∀ w : Instruction, w &&& (decodeInstruction w).row.1 = (decodeInstruction w).row.2 ∧
    ∀ i : Instr, i.row.1 = 0x7f → w &&& i.row.1 = i.row.2 → (decodeInstruction w).row = i.row

/-- The bytes of a well-formed instruction, in the parcel order of R45 and the byte order of R46 (decision D6, log
entry 15), decode to it and leave what follows. A decoder over byte strings, and that a compressed instruction
needs only its own two bytes (R91 always passes two parcels), is THE MODEL'S CHOICE, log entry 21. -/
def Obligations.DecodeOfEncodedBytes : Prop :=
  ∀ (i : Instr) (rest : List Byte), i.wf = true → decode (encodeBytes i ++ rest) = .ok (i, rest)

/-- THE MODEL'S CHOICE, log entry 21, over R60: a byte string is rejected, by the name `truncated`, exactly when it
ends inside an instruction, which takes two bytes, or four when the first parcel's low two bits are 0b11. That
those two bits stand in the first byte is decision D6 (log entry 15). -/
def Obligations.DecodeRejectsOnlyTruncatedBytes : Prop :=
  ∀ bs : List Byte, decode bs = .error .truncated ↔
    bs.length < 2 ∨ bs.length < 4 ∧ ∃ b, bs.head? = some b ∧ b.toNat % 4 = 3

/-! ### What each instruction does -/

/-- STANDARD_32 completes in every state (log entry 22): all eleven standard accessors with their values, the five
immediates assembled as R62 to R66 say (J by D4, log entry 8), 4 bytes consumed (D15, log entry 15), nothing else
changed. That these accessors are what is recorded is THE MODEL'S CHOICE, log entry 11. -/
def Obligations.Standard32RecordsEveryStandardField : Prop :=
  ∀ (opcode : BitVec 7) (rd : Register) (f3 : BitVec 3) (rs1 rs2 : Register) (f7 : BitVec 7) (s : State),
    exec (.standard32 opcode rd f3 rs1 rs2 f7) s = .next (s.recorded 4
      { addr := s.pc, inst := encode (.standard32 opcode rd f3 rs1 rs2 f7), flag := false,
        applied := [(.opcode, .u8 (opcode.setWidth 8)), (.rd, .register rd), (.funct3, .u8 (f3.setWidth 8)),
          (.rs1, .register rs1), (.rs2, .register rs2), (.funct7, .u8 (f7.setWidth 8))]
          ++ immediateFields rd f3 rs1 rs2 f7,
        immediate := none })

/-- COMPRESSED_Q0, Q1 and Q2 complete in every state (log entry 22): all nine compressed accessors with their values
(funct positions by D3, log entry 7), 2 bytes consumed (D15, log entry 15), nothing else changed. That these
accessors are what is recorded is THE MODEL'S CHOICE, log entry 11. -/
def Obligations.CompressedClassesRecordEveryCompressedField : Prop :=
  ∀ (f4 : BitVec 4) (rs1 rs2 : Register) (s : State),
    exec (.compressedQ0 f4 rs1 rs2) s = .next (s.recorded 2
      { addr := s.pc, inst := encode (.compressedQ0 f4 rs1 rs2), flag := true,
        applied := compressedFields 0b00 f4 rs1 rs2, immediate := none }) ∧
    exec (.compressedQ1 f4 rs1 rs2) s = .next (s.recorded 2
      { addr := s.pc, inst := encode (.compressedQ1 f4 rs1 rs2), flag := true,
        applied := compressedFields 0b01 f4 rs1 rs2, immediate := none }) ∧
    exec (.compressedQ2 f4 rs1 rs2) s = .next (s.recorded 2
      { addr := s.pc, inst := encode (.compressedQ2 f4 rs1 rs2), flag := true,
        applied := compressedFields 0b10 f4 rs1 rs2, immediate := none })

/-- LOAD, MISC-MEM, OP-IMM-32, JALR and SYSTEM complete in every state (log entry 22) for every encodable immediate:
the I fields with the operands' values, the immediate widened to XLEN (D17), 4 bytes consumed (D15; both log entry
15), nothing else changed. Which accessors this consumer applies and records (`opcode` included; R79 leaves it to
the consumer), and that OP-IMM-32 runs at XLEN 32 too, are THE MODEL'S CHOICE, log entry 11. -/
def Obligations.IFormatRowsRecordTheirFields : Prop :=
  ∀ (rd : Register) (f3 : BitVec 3) (rs1 : Register) (imm : BitVec 32) (s : State), fits12 imm = true →
    exec (.load rd f3 rs1 imm) s = .next (s.recorded 4
      { addr := s.pc, inst := encode (.load rd f3 rs1 imm), flag := false,
        applied := iFields .load rd f3 rs1 imm, immediate := some (imm.signExtend s.xlen.bits) }) ∧
    exec (.miscMem rd f3 rs1 imm) s = .next (s.recorded 4
      { addr := s.pc, inst := encode (.miscMem rd f3 rs1 imm), flag := false,
        applied := iFields .miscMem rd f3 rs1 imm, immediate := some (imm.signExtend s.xlen.bits) }) ∧
    exec (.opImm32 rd f3 rs1 imm) s = .next (s.recorded 4
      { addr := s.pc, inst := encode (.opImm32 rd f3 rs1 imm), flag := false,
        applied := iFields .opImm32 rd f3 rs1 imm, immediate := some (imm.signExtend s.xlen.bits) }) ∧
    exec (.jalr rd f3 rs1 imm) s = .next (s.recorded 4
      { addr := s.pc, inst := encode (.jalr rd f3 rs1 imm), flag := false,
        applied := iFields .jalr rd f3 rs1 imm, immediate := some (imm.signExtend s.xlen.bits) }) ∧
    exec (.system rd f3 rs1 imm) s = .next (s.recorded 4
      { addr := s.pc, inst := encode (.system rd f3 rs1 imm), flag := false,
        applied := iFields .system rd f3 rs1 imm, immediate := some (imm.signExtend s.xlen.bits) })

/-- OP-IMM completes in every state (log entry 22) for every encodable immediate: the I fields, the immediate
widened to XLEN (D17), and `funct7` and `rs2`, which hold imm[11:5] and imm[4:0]; 4 bytes consumed (D15; both log
entry 15). R72 and R105 say that its shifts use the last two; that they are recorded of every OP-IMM word, and which
other accessors are, is THE MODEL'S CHOICE, log entry 11. -/
def Obligations.OpImmRecordsItsFieldsAndShiftFields : Prop :=
  ∀ (rd : Register) (f3 : BitVec 3) (rs1 : Register) (imm : BitVec 32) (s : State), fits12 imm = true →
    exec (.opImm rd f3 rs1 imm) s = .next (s.recorded 4
      { addr := s.pc, inst := encode (.opImm rd f3 rs1 imm), flag := false,
        applied := iFields .opImm rd f3 rs1 imm ++ [(.funct7, .u8 (BitVec.ofNat 8 (imm.toNat / 2 ^ 5 % 2 ^ 7))),
          (.rs2, .register (Register.ofField (imm.extractLsb' 0 5)))],
        immediate := some (imm.signExtend s.xlen.bits) })

/-- OP and OP-32 complete in every state (log entry 22): the six R fields, no immediate, 4 bytes consumed (D15, log
entry 15), nothing else changed. Which accessors are recorded, and that OP-32 runs at XLEN 32 too, are THE MODEL'S
CHOICE, log entry 11. -/
def Obligations.RFormatRowsRecordTheirFields : Prop :=
  ∀ (rd : Register) (f3 : BitVec 3) (rs1 rs2 : Register) (f7 : BitVec 7) (s : State),
    exec (.op rd f3 rs1 rs2 f7) s = .next (s.recorded 4
      { addr := s.pc, inst := encode (.op rd f3 rs1 rs2 f7), flag := false,
        applied := [(.opcode, .u8 0x33), (.rd, .register rd), (.funct3, .u8 (f3.setWidth 8)), (.rs1, .register rs1),
          (.rs2, .register rs2), (.funct7, .u8 (f7.setWidth 8))],
        immediate := none }) ∧
    exec (.op32 rd f3 rs1 rs2 f7) s = .next (s.recorded 4
      { addr := s.pc, inst := encode (.op32 rd f3 rs1 rs2 f7), flag := false,
        applied := [(.opcode, .u8 0x3b), (.rd, .register rd), (.funct3, .u8 (f3.setWidth 8)), (.rs1, .register rs1),
          (.rs2, .register rs2), (.funct7, .u8 (f7.setWidth 8))],
        immediate := none })

/-- STORE and BRANCH complete in every state (log entry 22) for every encodable immediate: `opcode`, `funct3`,
`rs1`, `rs2` and their own immediate, widened to XLEN (D17); 4 bytes consumed (D15; both log entry 15), nothing
stored, nothing else changed. Which accessors are recorded (`opcode` included) is THE MODEL'S CHOICE, log entry 11.
-/
def Obligations.StoreAndBranchRecordTheirFields : Prop :=
  ∀ (f3 : BitVec 3) (rs1 rs2 : Register) (imm : BitVec 32) (s : State),
    (fits12 imm = true → exec (.store f3 rs1 rs2 imm) s = .next (s.recorded 4
      { addr := s.pc, inst := encode (.store f3 rs1 rs2 imm), flag := false,
        applied := [(.opcode, .u8 0x23), (.funct3, .u8 (f3.setWidth 8)), (.rs1, .register rs1), (.rs2, .register rs2),
          (.sImmediate, .u32 imm)],
        immediate := some (imm.signExtend s.xlen.bits) })) ∧
    (fits13Even imm = true → exec (.branch f3 rs1 rs2 imm) s = .next (s.recorded 4
      { addr := s.pc, inst := encode (.branch f3 rs1 rs2 imm), flag := false,
        applied := [(.opcode, .u8 0x63), (.funct3, .u8 (f3.setWidth 8)), (.rs1, .register rs1), (.rs2, .register rs2),
          (.bImmediate, .u32 imm)],
        immediate := some (imm.signExtend s.xlen.bits) }))

/-- AUIPC, LUI and JAL complete in every state (log entry 22) for every encodable immediate: `opcode`, `rd` and the
immediate, widened to XLEN (D17); 4 bytes consumed (D15; both log entry 15), nothing else changed. JAL's immediate
rests on decision D4 (log entry 8). Which accessors are recorded (`opcode` included) is THE MODEL'S CHOICE, log
entry 11. -/
def Obligations.UpperAndJumpRowsRecordTheirFields : Prop :=
  ∀ (rd : Register) (imm : BitVec 32) (s : State),
    (fitsUpper imm = true →
      exec (.auipc rd imm) s = .next (s.recorded 4
        { addr := s.pc, inst := encode (.auipc rd imm), flag := false,
          applied := [(.opcode, .u8 0x17), (.rd, .register rd), (.uImmediate, .u32 imm)],
          immediate := some (imm.signExtend s.xlen.bits) }) ∧
      exec (.lui rd imm) s = .next (s.recorded 4
        { addr := s.pc, inst := encode (.lui rd imm), flag := false,
          applied := [(.opcode, .u8 0x37), (.rd, .register rd), (.uImmediate, .u32 imm)],
          immediate := some (imm.signExtend s.xlen.bits) })) ∧
    (fits21Even imm = true → exec (.jal rd imm) s = .next (s.recorded 4
      { addr := s.pc, inst := encode (.jal rd imm), flag := false,
        applied := [(.opcode, .u8 0x6f), (.rd, .register rd), (.jImmediate, .u32 imm)],
        immediate := some (imm.signExtend s.xlen.bits) }))

/-- R71, R155 and the non-goals of R5: the frame of every instruction in every form. The next state is the old
one with the fetch position moved and one entry put before the old records, which stand as they were: no
register, no byte, no bus call of the history and no width changes, and no Cause is reported. -/
def Obligations.InstructionsLeaveTheHartAlone : Prop :=
  ∀ (i : Instr) (s t : State), exec i s = .next t →
    (∃ (n : Nat) (e : Entry s.xlen), t = s.recorded n e) ∧
    t.xlen = s.xlen ∧ t.record.length = s.record.length + 1 ∧
    (∀ (p : Params) (r : Register), (Hart.loadRegister p t.hart r).toNat = (Hart.loadRegister p s.hart r).toNat) ∧
    t.hart.regStores.length = s.hart.regStores.length ∧
    (∀ a, Memory.get t.hart.bus.mem a = Memory.get s.hart.bus.mem a) ∧
    t.hart.bus.log.length = s.hart.bus.log.length ∧
    (Bus.reportedCauses t.hart.bus).map BitVec.toNat = (Bus.reportedCauses s.hart.bus).map BitVec.toNat

/-- R6, R7: the word, the flag, the accessor values and the 32-bit immediate an instruction records are a function
of the instruction alone: not of the width, and of nothing else in the state. What the state gives the entry is its
address, the fetch position, and the width to which the immediate is widened (R117, D17: log entry 15). Which of the
block's outputs an instruction's entry lists is log entry 11; that it completes whatever its encoding is log entry
22. -/
def Obligations.OutputsDependOnTheInstructionAlone : Prop :=
  ∀ i : Instr, ∃ (w : Instruction) (flag : Bool) (applied : List (Accessor × Value)) (imm : Option (BitVec 32)),
    ∀ s : State, ∃ t e, exec i s = .next t ∧ t.record.head? = some e ∧
      e.inst = w ∧ e.flag = flag ∧ e.applied = applied ∧ e.addr.toNat = s.pc.toNat ∧
      e.immediate.map BitVec.toNat = imm.map (fun v => (widenImmediate s.xlen v).toNat)

/-- R14, R94 (decision D5): a consumer's use of an accessor gives the block's output for a word of the
accessor's own width, and is refused by name for a word of the other. -/
def Obligations.WrongWidthUseIsRefused : Prop :=
  ∀ w : Instruction,
    (∀ a ∈ standardAccessors, (Instruction.standard w = true → Accessor.use a w = .ok (a.value w)) ∧
      (Instruction.compressed w = true → Accessor.use a w = .error (.wrongWidthAccessor a))) ∧
    (∀ a ∈ compressedAccessors, (Instruction.compressed w = true → Accessor.use a w = .ok (a.value w)) ∧
      (Instruction.standard w = true → Accessor.use a w = .error (.wrongWidthAccessor a)))

/-! ### The step -/

/-- A step runs the decoded instruction: where the bytes at the fetch position are those of a well-formed
instruction, the step is its `exec` in the state that the two parcel reads leave. -/
def Obligations.StepRunsTheDecodedInstruction : Prop :=
  ∀ (s : State) (i : Instr), i.wf = true → s.pc.toNat + (encodeBytes i).length ≤ 2 ^ s.xlen.bits →
    Bus.Holds s.hart.bus s.pc.toNat (encodeBytes i) →
    step s = exec i (s.withBus
      (Bus.readU16 Config.params (Bus.readU16 Config.params s.hart.bus s.pc).2 (nextAddress Config.params s.pc 2)).2)

/-- The word that `withFetchWord` places, in any state, is what the next step decodes and runs (log entry 5: the
placing is the model's stand-in for a load from outside). -/
def Obligations.StepRunsThePlacedWord : Prop :=
  ∀ (s : State) (nbits w : Nat), ∃ i, decodeTableWord nbits w = some i ∧
    step (s.withFetchWord nbits w) = exec i ((s.withFetchWord nbits w).fetch Config.params).2

/-- R91, R45, and the fetch loop of spec/95_test_vectors.md as log entry 12 reads it: a step completes in every
state (log entry 22). It records, at the fetch position, the Instruction `from_parcels` builds from the two parcels
the bus gives, and moves by 2 or 4 bytes by the flag (D15, log entry 15). -/
def Obligations.StepRecordsWhatTheParcelsBuild : Prop :=
  ∀ s : State, ∃ t e,
    step s = .next t ∧ t.record.head? = some e ∧ e.addr.toNat = s.pc.toNat ∧
    (e.inst, e.flag) = Instruction.fromParcels (Bus.readU16 Config.params s.hart.bus s.pc).1
      (Bus.readU16 Config.params (Bus.readU16 Config.params s.hart.bus s.pc).2 (nextAddress Config.params s.pc 2)).1 ∧
    t.pc.toNat = (nextAddress Config.params s.pc (advanceBytes e.flag)).toNat

/-- R29, R91, R175 (decision D15, log entry 15): 2 bytes when the flag is true, 4 when it is false, below the top
of the address space; past the top the value is free, but an instruction address stays even (R47, log entry
6). -/
def Obligations.AdvanceIsTwoOrFourBytes : Prop :=
  ∀ (p : Params) (x : Xlen) (a : Addr x) (flag : Bool),
    (a.toNat + (if flag then 2 else 4) < 2 ^ x.bits →
      (nextAddress p a (advanceBytes flag)).toNat = a.toNat + (if flag then 2 else 4)) ∧
    (a.getLsbD 0 = false → (nextAddress p a (advanceBytes flag)).getLsbD 0 = false)

/-- The frame of a step, from any state. The step makes exactly two bus calls, both `read_u16`: at the fetch
position, then one parcel further (log entry 12); they stand on top of the old history. It puts one entry
before the old records: the fetch position, the Instruction and the flag that `from_parcels` builds of the two
values read (R91), and accessors that each have a meaning for that Instruction and its value (R94). The fetch
position moves by the flag (D15, log entry 15). Nothing else changes: no register, no Cause (R41), and, by log
entry 4, no listed byte. -/
def Obligations.StepOnlyReadsTheBus : Prop :=
  ∀ s t : State, step s = .next t →
    let first := Bus.readU16 Config.params s.hart.bus s.pc
    let second := Bus.readU16 Config.params first.2 (nextAddress Config.params s.pc 2)
    (∃ e : Entry s.xlen, t = (s.withBus second.2).recorded (advanceBytes e.flag) e ∧
      e.addr = s.pc ∧ (e.inst, e.flag) = Instruction.fromParcels first.1 second.1 ∧
      ∀ av ∈ e.applied, Accessor.use av.1 e.inst = .ok av.2) ∧
    second.2.mem = s.hart.bus.mem ∧
    second.2.log = .read (nextAddress Config.params s.pc 2) .w16 second.1 ::
      .read s.pc .w16 first.1 :: s.hart.bus.log ∧
    (∀ (p : Params) (r : Register), (Hart.loadRegister p t.hart r).toNat = (Hart.loadRegister p s.hart r).toNat) ∧
    (∀ a, Memory.get t.hart.bus.mem a = Memory.get s.hart.bus.mem a) ∧
    t.hart.bus.log.length = s.hart.bus.log.length + 2 ∧ t.record.length = s.record.length + 1 ∧ t.xlen = s.xlen ∧
    (Bus.reportedCauses t.hart.bus).map BitVec.toNat = (Bus.reportedCauses s.hart.bus).map BitVec.toNat

/-- R176, R56 (decisions D14 and D6, log entry 15): after an `Ok` write, of any width and at any address, the next
step decodes what `from_parcels` builds of the two parcels read after it, and in them byte `j` from the fetch
position is the write's byte wherever the write covers it below the top of the address space and it is no device's,
whatever stood there before. So where the write covers, from its byte `k` on, a whole compressed parcel at the fetch
position, that parcel is decoded; where it covers four bytes there, those 32 bits, standard or compressed. That both
parcels are read is log entry 12, that the step runs whatever they decode to log entry 22. -/
def Obligations.StoreToTheFetchPositionIsDecodedNext : Prop :=
  ∀ (p : Params) (s : State) (a : Addr s.xlen) (w : Width) (v : BitVec w.bits),
    p.busWrite s.xlen a w v s.hart.bus.log = .ok →
    let s' := s.withBus (Bus.write p s.hart.bus a w v).2
    let first := Bus.readU16 Config.params s'.hart.bus s'.pc
    let second := Bus.readU16 Config.params first.2 (nextAddress Config.params s'.pc 2)
    step s' = exec (decodeInstruction (Instruction.fromParcels first.1 second.1).1) (s'.fetch Config.params).2 ∧
    (∀ j < 4, ∀ k < w.bytes, s.pc.toNat + j = a.toNat + k → s.pc.toNat + j < 2 ^ s.xlen.bits →
      p.isDevice s.xlen (s.pc.toNat + j) = false →
      (second.1 ++ first.1).extractLsb' (8 * j) 8 = v.extractLsb' (8 * k) 8) ∧
    ∀ k, s.pc.toNat = a.toNat + k →
      (k + 2 ≤ w.bytes → s.pc.toNat + 2 ≤ 2 ^ s.xlen.bits →
        (∀ j < 2, p.isDevice s.xlen (s.pc.toNat + j) = false) → (v.extractLsb' (8 * k) 16).toNat % 4 ≠ 3 →
        step s' = exec (decodeInstruction ((v.extractLsb' (8 * k) 16).setWidth 32)) (s'.fetch Config.params).2) ∧
      (k + 4 ≤ w.bytes → s.pc.toNat + 4 ≤ 2 ^ s.xlen.bits →
        (∀ j < 4, p.isDevice s.xlen (s.pc.toNat + j) = false) →
        step s' = exec (decodeInstruction (v.extractLsb' (8 * k) 32)) (s'.fetch Config.params).2)

/-! ### The machine -/

/-- Every step keeps the invariant: memory canonical (R40), the fetch position and every recorded address 2-byte
aligned (R47; past the top by log entry 6), every record the block's own output for its length class (R60,
R69, R94), and the records consecutive (R175). The step is the fetch loop as log entry 12 reads it. -/
def Obligations.StepKeepsTheInvariant : Prop :=
  ∀ s t : State, s.Inv → step s = .next t → t.Inv

/-- The invariant holds at reset, for either width and every even fetch position; in particular in the
reset state the host runs, whose width and position are the model's choice (log entries 2 and 3). -/
def Obligations.ResetMeetsTheInvariant : Prop :=
  (∀ (x : Xlen) (pc : Addr x), pc.getLsbD 0 = false → (State.resetAt x pc).Inv) ∧ State.reset.Inv

/-- The execution core's contract calls between steps (log entry 20) keep the invariant: any register store, any
read, any write, landed or failed (what they do to the listed bytes: log entries 4, 6 and 14). -/
def Obligations.ContractCallsKeepTheInvariant : Prop :=
  ∀ (p : Params) (s : State) (a : Addr s.xlen) (w : Width) (v : BitVec w.bits) (r : Register) (u : XWord s.xlen),
    s.Inv → (s.withBus (Bus.write p s.hart.bus a w v).2).Inv ∧ (s.withBus (Bus.read p s.hart.bus a w).2).Inv ∧
      (s.withHart (Hart.storeRegister s.hart r u)).Inv

/-- From every state, and for as long as it runs, the machine never faults and never refuses. R94, R155 and R73
make the block total; that the machine around it runs on is THE MODEL'S CHOICE: the fetch loop has no end
address (log entry 12), fetches at odd positions (13), goes on past the top (6), takes no trap (17) and treats no
encoding as illegal (22). -/
def Obligations.MachineNeverStops : Prop :=
  ∀ s : State, s.NeverStops
end

