-- ==== Sys2Proof/Laws/Memory.lean ====
section
/-! SUPPORT. The laws of memory: read after write, and that every memory operation keeps the canonical
form. -/

namespace Sys2Proof.Machine

theorem Memory.get_set_same (m : Memory) (a : Nat) (b : Byte) : Memory.get (Memory.set m a b) a = some b := by
  induction m with
  | nil => simp [Memory.set, Memory.get]
  | cons c m ih =>
    simp only [Memory.set]
    split_ifs with h1 h2
    · simp [Memory.get]
    · simp [Memory.get]
    · simp [Memory.get, h2, ih]

theorem Memory.get_set_other (m : Memory) {a a' : Nat} (b : Byte) (h : a' ≠ a) :
    Memory.get (Memory.set m a b) a' = Memory.get m a' := by
  induction m with
  | nil => simp [Memory.set, Memory.get, h]
  | cons c m ih =>
    simp only [Memory.set]
    split_ifs with h1 h2
    · simp [Memory.get, h]
    · subst h2; simp [Memory.get, h]
    · simp [Memory.get, ih]

theorem Memory.get_erase_same (m : Memory) (a : Nat) : Memory.get (Memory.erase m a) a = none := by
  induction m with
  | nil => rfl
  | cons c m ih =>
    by_cases h : c.1 = a
    · simpa [Memory.erase, h] using ih
    · simpa [Memory.erase, h, Memory.get, Ne.symm h] using ih

theorem Memory.get_erase_other (m : Memory) {a a' : Nat} (h : a' ≠ a) :
    Memory.get (Memory.erase m a) a' = Memory.get m a' := by
  induction m with
  | nil => rfl
  | cons c m ih =>
    by_cases hc : c.1 = a
    · simpa [Memory.erase, hc, Memory.get, h] using ih
    · by_cases ha : a' = c.1
      · simp [Memory.erase, hc, Memory.get, ha]
      · simpa [Memory.erase, hc, Memory.get, ha] using ih

/-- The addresses a `set` can list: the old ones and its own. -/
theorem Memory.mem_set {m : Memory} {a : Nat} {b : Byte} {c : Host.Cell} (h : c ∈ Memory.set m a b) :
    c ∈ m ∨ c.1 = a := by
  induction m with
  | nil => simp [Memory.set] at h; simp [h]
  | cons d m ih =>
    simp only [Memory.set] at h
    split_ifs at h
    · rcases List.mem_cons.1 h with h | h
      · exact .inr (by rw [h])
      · exact .inl h
    · rcases List.mem_cons.1 h with h | h
      · exact .inr (by rw [h])
      · exact .inl (List.mem_cons_of_mem _ h)
    · rcases List.mem_cons.1 h with h | h
      · exact .inl (by rw [h]; exact List.mem_cons_self)
      · exact (ih h).imp (List.mem_cons_of_mem _) id

theorem Memory.wf_set {m : Memory} (h : m.wf) (a : Nat) (b : Byte) : (Memory.set m a b).wf := by
  induction m with
  | nil => simp [Memory.set, Memory.wf]
  | cons d m ih =>
    obtain ⟨hd, hm⟩ := List.pairwise_cons.1 h
    simp only [Memory.set]
    split_ifs with h1 h2
    · refine List.pairwise_cons.2 ⟨fun c hc => ?_, h⟩
      rcases List.mem_cons.1 hc with rfl | hc
      · exact h1
      · exact h1.trans (hd c hc)
    · subst h2; exact List.pairwise_cons.2 ⟨hd, hm⟩
    · refine List.pairwise_cons.2 ⟨fun c hc => ?_, ih hm⟩
      rcases Memory.mem_set hc with hc | hc
      · exact hd c hc
      · omega

theorem Memory.wf_erase {m : Memory} (h : m.wf) (a : Nat) : (Memory.erase m a).wf := h.filter _

/-- A `set` below the top of the address space keeps a bus canonical. -/
theorem Bus.canonical_set {x : Xlen} {m : Memory} {l : List (BusCall x)} (h : Bus.Canonical ⟨m, l⟩) {a : Nat}
    (ha : a < 2 ^ x.bits) (b : Byte) (l' : List (BusCall x)) : Bus.Canonical ⟨Memory.set m a b, l'⟩ := by
  refine ⟨Memory.wf_set h.1 a b, fun c hc => ?_⟩
  rcases Memory.mem_set hc with hc | hc
  · exact h.2 c hc
  · exact hc ▸ ha

theorem Bus.canonical_erase {x : Xlen} {m : Memory} {l : List (BusCall x)} (h : Bus.Canonical ⟨m, l⟩) (a : Nat)
    (l' : List (BusCall x)) : Bus.Canonical ⟨Memory.erase m a, l'⟩ :=
  ⟨Memory.wf_erase h.1 a, fun c hc => h.2 c (List.mem_filter.1 hc).1⟩

theorem Bus.canonical_load {x : Xlen} {l : List (BusCall x)} (bs : List Byte) :
    ∀ {m : Memory} (a : Nat), Bus.Canonical ⟨m, l⟩ → Bus.Canonical ⟨Memory.load x m a bs, l⟩ := by
  induction bs with
  | nil => exact fun _ h => h
  | cons b bs ih =>
    intro m a h
    refine ih (a + 1) ?_
    split_ifs with ha
    · exact Bus.canonical_set h ha b l
    · exact h

theorem Bus.canonical_writeBytes (p : Params) {x : Xlen} {l : List (BusCall x)} (landed : Bool) (bs : List Byte)
    (l' : List (BusCall x)) :
    ∀ {m : Memory} (a : Nat), Bus.Canonical ⟨m, l⟩ → Bus.Canonical ⟨writeBytes p x landed m a bs, l'⟩ := by
  induction bs with
  | nil => exact fun _ h => h
  | cons b bs ih =>
    intro m a h
    refine ih (a + 1) ?_
    simp only [writeByte]
    split_ifs with ha
    · simp only [Bool.and_eq_true, decide_eq_true_eq] at ha
      exact Bus.canonical_set h ha.1.2 b l
    · exact Bus.canonical_erase h _ l

/-- A read call changes no contents. -/
theorem Bus.canonical_read (p : Params) {x : Xlen} {bus : Bus x} (addr : Addr x) (w : Width) (h : bus.Canonical) :
    (Bus.read p bus addr w).2.Canonical := h

/-- A write call, landed or failed, keeps the canonical form. -/
theorem Bus.canonical_write (p : Params) {x : Xlen} {bus : Bus x} (addr : Addr x) (w : Width) (v : BitVec w.bits)
    (h : bus.Canonical) : (Bus.write p bus addr w v).2.Canonical :=
  Bus.canonical_writeBytes p _ _ _ _ h

/-- Bytes below `a` are not touched by loading from `a` on. -/
theorem Memory.get_load_below (x : Xlen) (bs : List Byte) :
    ∀ (m : Memory) (a : Nat) {a' : Nat}, a' < a → Memory.get (Memory.load x m a bs) a' = Memory.get m a' := by
  induction bs with
  | nil => exact fun _ _ _ _ => rfl
  | cons b bs ih =>
    intro m a a' h
    rw [Memory.load, ih _ _ (by omega)]
    split_ifs
    · exact Memory.get_set_other m b (by omega)
    · rfl

/-- Bytes loaded below the top of the address space stand listed where they were put. -/
theorem Bus.holds_load {x : Xlen} {l : List (BusCall x)} (bs : List Byte) :
    ∀ (m : Memory) (a : Nat), a + bs.length ≤ 2 ^ x.bits → Bus.Holds (⟨Memory.load x m a bs, l⟩ : Bus x) a bs := by
  induction bs with
  | nil => exact fun _ _ _ => trivial
  | cons b bs ih =>
    intro m a h
    rw [List.length_cons] at h
    refine ⟨?_, ih _ (a + 1) (by omega)⟩
    rw [Memory.load, Memory.get_load_below x bs _ (a + 1) (by omega), if_pos (by omega)]
    exact Memory.get_set_same m a b

end Sys2Proof.Machine
end

