-- ==== Sys2Proof/Laws/State.lean ====
section
/-! SUPPORT. One lemma per field per update of the state, of the Hart and of the bus, so that no later proof
unfolds a record update. -/

namespace Sys2Proof.Machine

section retire
variable (s : State) (w : Instruction) (flag : Bool) (as : List Accessor) (imm : Option (BitVec 32))

@[simp] theorem State.retire_xlen : (s.retire w flag as imm).xlen = s.xlen := rfl
@[simp] theorem State.retire_pc :
    (s.retire w flag as imm).pc = nextAddress Config.params s.pc (advanceBytes flag) := rfl
@[simp] theorem State.retire_hart : (s.retire w flag as imm).hart = s.hart := rfl
@[simp] theorem State.retire_record : (s.retire w flag as imm).record =
    { addr := s.pc, inst := w, flag := flag, applied := applyAccessors as w,
      immediate := imm.map (widenImmediate s.xlen) } :: s.record := rfl

end retire

section contract
variable (s : State) (h : Hart s.xlen) (b : Bus s.xlen)

@[simp] theorem State.withHart_xlen : (s.withHart h).xlen = s.xlen := rfl
@[simp] theorem State.withHart_pc : (s.withHart h).pc = s.pc := rfl
@[simp] theorem State.withHart_hart : (s.withHart h).hart = h := rfl
@[simp] theorem State.withHart_record : (s.withHart h).record = s.record := rfl
@[simp] theorem State.withBus_xlen : (s.withBus b).xlen = s.xlen := rfl
@[simp] theorem State.withBus_pc : (s.withBus b).pc = s.pc := rfl
@[simp] theorem State.withBus_bus : (s.withBus b).hart.bus = b := rfl
@[simp] theorem State.withBus_regStores : (s.withBus b).hart.regStores = s.hart.regStores := rfl
@[simp] theorem State.withBus_record : (s.withBus b).record = s.record := rfl

end contract

section fetch
variable (p : Params) (s : State)

@[simp] theorem State.fetch_xlen : (s.fetch p).2.xlen = s.xlen := rfl
@[simp] theorem State.fetch_pc : (s.fetch p).2.pc = s.pc := rfl
@[simp] theorem State.fetch_record : (s.fetch p).2.record = s.record := rfl
@[simp] theorem State.fetch_regStores : (s.fetch p).2.hart.regStores = s.hart.regStores := rfl
@[simp] theorem State.fetch_mem : (s.fetch p).2.hart.bus.mem = s.hart.bus.mem := rfl

end fetch

section image
variable (s : State) (base : Nat) (bytes : List Byte)

@[simp] theorem State.loadImage_xlen : (s.loadImage base bytes).xlen = s.xlen := rfl
@[simp] theorem State.loadImage_pc : (s.loadImage base bytes).pc = s.pc := rfl
@[simp] theorem State.loadImage_record : (s.loadImage base bytes).record = s.record := rfl
@[simp] theorem State.loadImage_regStores : (s.loadImage base bytes).hart.regStores = s.hart.regStores := rfl
@[simp] theorem State.loadImage_log : (s.loadImage base bytes).hart.bus.log = s.hart.bus.log := rfl
@[simp] theorem State.loadImage_mem :
    (s.loadImage base bytes).hart.bus.mem = Memory.load s.xlen s.hart.bus.mem base bytes := rfl

end image

section bus
variable (p : Params) {x : Xlen} (bus : Bus x) (addr : Addr x) (w : Width) (v : BitVec w.bits)

@[simp] theorem Bus.read_value : (Bus.read p bus addr w).1 = Bus.readValue p bus addr w := rfl
@[simp] theorem Bus.read_mem : (Bus.read p bus addr w).2.mem = bus.mem := rfl
@[simp] theorem Bus.read_log :
    (Bus.read p bus addr w).2.log = .read addr w (Bus.readValue p bus addr w) :: bus.log := rfl
@[simp] theorem Bus.write_result :
    (Bus.write p bus addr w v).1 = writeResult x (p.busWrite x addr w v bus.log) := rfl
@[simp] theorem Bus.write_log : (Bus.write p bus addr w v).2.log =
    .write addr w v (writeResult x (p.busWrite x addr w v bus.log)) :: bus.log := rfl
@[simp] theorem Bus.write_mem : (Bus.write p bus addr w v).2.mem =
    writeBytes p x (p.busWrite x addr w v bus.log == .ok) bus.mem addr.toNat (leBytes w v) := rfl

end bus

section hart
variable (p : Params) {x : Xlen} (h : Hart x) (r : Register) (v : XWord x)

@[simp] theorem Hart.storeRegister_regStores :
    (Hart.storeRegister h r v).regStores = { reg := r, value := v } :: h.regStores := rfl
@[simp] theorem Hart.storeRegister_bus : (Hart.storeRegister h r v).bus = h.bus := rfl
@[simp] theorem Hart.loadRegister_def : Hart.loadRegister p h r = p.hartRegs x h.regStores r := rfl

end hart

@[simp] theorem Hart.reset_regStores (x : Xlen) : (Hart.reset x).regStores = [] := rfl
@[simp] theorem Hart.reset_mem (x : Xlen) : (Hart.reset x).bus.mem = [] := rfl
@[simp] theorem Hart.reset_log (x : Xlen) : (Hart.reset x).bus.log = [] := rfl

/-- Below the top of the address space the next address is the sum. -/
theorem nextAddress_toNat (p : Params) {x : Xlen} (a : Addr x) {n : Nat} (h : a.toNat + n < 2 ^ x.bits) :
    (nextAddress p a n).toNat = a.toNat + n := by
  rw [nextAddress, if_pos h, BitVec.toNat_ofNat, Nat.mod_eq_of_lt h]

/-- Everything one instruction can do: it completes, it records its own word with its own length class and
the accessors its meaning applies, which all have a meaning for that word's class, and it advances. The accessors and
the immediate are the instruction's, the same in every state. -/
theorem exec_eq_retire_uniform (i : Instr) :
    ∃ as imm, as ⊆ (if i.isCompressed then compressedAccessors else standardAccessors) ∧
      ∀ s, exec i s = .next (s.retire (encode i) i.isCompressed as imm) := by
  cases i <;> refine ⟨_, _, ?_, fun _ => rfl⟩ <;>
    simp only [Instr.isCompressed, Bool.false_eq_true, if_true, if_false] <;> decide

/-- `exec_eq_retire_uniform` in one state. -/
theorem exec_eq_retire (i : Instr) (s : State) :
    ∃ as imm, exec i s = .next (s.retire (encode i) i.isCompressed as imm) ∧
      as ⊆ (if i.isCompressed then compressedAccessors else standardAccessors) := by
  obtain ⟨as, imm, sub, all⟩ := exec_eq_retire_uniform i
  exact ⟨as, imm, all s, sub⟩

/-- Everything one step can do: it fetches, and the decoded instruction retires in the state the fetch
left. -/
theorem step_eq_retire (s : State) :
    ∃ as imm, step s = .next ((s.fetch Config.params).2.retire
        (encode (decodeInstruction (s.fetch Config.params).1.1))
        (decodeInstruction (s.fetch Config.params).1.1).isCompressed as imm) ∧
      as ⊆ (if (decodeInstruction (s.fetch Config.params).1.1).isCompressed then compressedAccessors
        else standardAccessors) :=
  exec_eq_retire _ _

end Sys2Proof.Machine
end

