-- ==== Sys2Proof/Laws/Bus.lean ====
section
/-! SUPPORT. What the shared operations of the bus and of the fetch loop can do. -/

namespace Sys2Proof.Machine

theorem Bus.holds_get {x : Xlen} {bus : Bus x} {bs : List Byte} :
    ∀ {a : Nat}, Bus.Holds bus a bs → ∀ {k : Nat} (h : k < bs.length), Memory.get bus.mem (a + k) = some bs[k] := by
  induction bs with
  | nil => intro _ _ k h; simp at h
  | cons b bs ih =>
    intro a hh k h
    match k with
    | 0 => exact hh.1
    | k + 1 =>
      have := ih hh.2 (k := k) (by simpa using h)
      rwa [Nat.add_assoc, Nat.add_comm 1 k] at this

theorem Bus.holds_of_get {x : Xlen} {bus : Bus x} {bs : List Byte} :
    ∀ {a : Nat}, (∀ k (h : k < bs.length), Memory.get bus.mem (a + k) = some bs[k]) → Bus.Holds bus a bs := by
  induction bs with
  | nil => exact fun _ => trivial
  | cons b bs ih =>
    intro a h
    refine ⟨h 0 (by simp), ih fun k hk => ?_⟩
    rw [Nat.add_assoc, Nat.add_comm 1]
    exact h (k + 1) (by simpa using hk)

/-- A read byte that is listed is its contents. -/
theorem Bus.byteAt_of_get (p : Params) {x : Xlen} {bus : Bus x} {addr : Addr x} (w : Width) {k : Nat} {b : Byte}
    (hk : addr.toNat + k < 2 ^ x.bits) (h : Memory.get bus.mem (addr.toNat + k) = some b) :
    Bus.byteAt p bus addr w k = b := by
  simp only [Bus.byteAt]
  rw [if_pos hk, h]

/-- A read byte that is not listed is `busRead`'s for that call. -/
theorem Bus.byteAt_of_get_none (p : Params) {x : Xlen} {bus : Bus x} {addr : Addr x} (w : Width) {k : Nat}
    (h : Memory.get bus.mem (addr.toNat + k) = none) :
    Bus.byteAt p bus addr w k = (p.busRead x addr w bus.log).extractLsb' (8 * k) 8 := by
  simp only [Bus.byteAt]
  split_ifs <;> simp [*]

/-- `read_u8` gives its one byte. -/
theorem Bus.readU8_eq_byteAt (p : Params) {x : Xlen} (bus : Bus x) (addr : Addr x) :
    (Bus.readU8 p bus addr).1 = Bus.byteAt p bus addr .w8 0 := by
  simp [Bus.readU8, Bus.read, Bus.readValue, leNat, List.range, List.range.loop, Width.bits]

@[simp] theorem leBytes_length (w : Width) (v : BitVec w.bits) : (leBytes w v).length = w.bytes := by
  simp [leBytes]

/-- The bytes of a value, put together again, are the value (R46). -/
theorem leNat_leBytes (w : Width) (v : BitVec w.bits) : BitVec.ofNat w.bits (leNat (leBytes w v)) = v := by
  apply BitVec.eq_of_toNat_eq
  cases w <;> have := v.isLt <;>
    simp only [Width.bits] at this <;>
    simp [leBytes, List.range, List.range.loop, leNat, Nat.shiftRight_eq_div_pow, Width.bits] <;>
    omega

/-- Digit `k` of a value made of bytes is byte `k`. -/
theorem leNat_digit (bs : List Byte) : ∀ {k : Nat} (h : k < bs.length), leNat bs / 2 ^ (8 * k) % 2 ^ 8 = bs[k].toNat := by
  induction bs with
  | nil => intro k h; simp at h
  | cons b bs ih =>
    intro k h
    have hb := b.isLt
    match k with
    | 0 => simp only [leNat, List.getElem_cons_zero]; omega
    | k + 1 =>
      rw [List.getElem_cons_succ, ← ih (k := k) (by simpa using h), leNat, Nat.mul_succ, Nat.add_comm _ 8, Nat.pow_add,
        ← Nat.div_div_eq_div_mul]
      congr 2
      omega

/-- Byte `k` of a read's value is its byte `k` (R46). -/
theorem Bus.readValue_byte (p : Params) {x : Xlen} (bus : Bus x) (addr : Addr x) {w : Width} {k : Nat} (hk : k < w.bytes) :
    (Bus.readValue p bus addr w).extractLsb' (8 * k) 8 = Bus.byteAt p bus addr w k := by
  have digit := leNat_digit ((List.range w.bytes).map (Bus.byteAt p bus addr w)) (k := k) (by simpa using hk)
  rw [List.getElem_map, List.getElem_range] at digit
  apply BitVec.eq_of_toNat_eq
  rw [← digit, BitVec.extractLsb'_toNat, Nat.shiftRight_eq_div_pow, Bus.readValue, BitVec.toNat_ofNat]
  have hw : 2 ^ w.bits = 2 ^ (8 * k) * (2 ^ 8 * 2 ^ (w.bits - 8 * k - 8)) := by
    rw [← Nat.pow_add, ← Nat.pow_add]
    congr 1
    cases w <;> simp only [Width.bytes, Width.bits] at * <;> omega
  rw [hw, Nat.mod_mul_right_div_self, Nat.mod_mul_right_mod]

/-- A read of listed bytes is the value they hold. -/
theorem Bus.readValue_of_holds (p : Params) {x : Xlen} {bus : Bus x} {addr : Addr x} {w : Width} {v : BitVec w.bits}
    (hr : addr.toNat + w.bytes ≤ 2 ^ x.bits) (h : Bus.Holds bus addr.toNat (leBytes w v)) :
    Bus.readValue p bus addr w = v := by
  have : (List.range w.bytes).map (Bus.byteAt p bus addr w) = leBytes w v := by
    apply List.ext_getElem (by simp)
    intro k hk _
    have hk : k < w.bytes := by simpa using hk
    rw [List.getElem_map, List.getElem_range]
    exact Bus.byteAt_of_get p w (by omega) (Bus.holds_get h (by simpa using hk))
  rw [Bus.readValue, this, leNat_leBytes]

/-- A 16-bit read of two listed bytes is the parcel they make. -/
theorem Bus.readU16_of_holds (p : Params) {x : Xlen} {bus : Bus x} {addr : Addr x} {b0 b1 : Byte}
    (hr : addr.toNat + 2 ≤ 2 ^ x.bits) (h : Bus.Holds bus addr.toNat [b0, b1]) :
    (Bus.readU16 p bus addr).1 = parcelOfBytes b0 b1 := by
  refine Bus.readValue_of_holds p (w := .w16) hr ?_
  have low : (parcelOfBytes b0 b1).extractLsb' 0 8 = b0 := by
    apply BitVec.eq_of_getLsbD_eq
    intro i hi
    simp only [parcelOfBytes, BitVec.getLsbD_extractLsb', BitVec.getLsbD_append]
    interval_cases i <;> simp
  have high : (parcelOfBytes b0 b1).extractLsb' 8 8 = b1 := by
    apply BitVec.eq_of_getLsbD_eq
    intro i hi
    simp only [parcelOfBytes, BitVec.getLsbD_extractLsb', BitVec.getLsbD_append]
    interval_cases i <;> simp
  have bytes : leBytes .w16 (parcelOfBytes b0 b1) = [b0, b1] := by
    rw [← low, ← high]
    simp [leBytes, List.range, List.range.loop, low, high]
  exact bytes ▸ h

/-- One byte of a write touches its own address and nothing else below the top of the address space. -/
theorem writeByte_get_other (p : Params) (x : Xlen) (landed : Bool) (m : Memory) {a a' : Nat} (b : Byte)
    (h : a' ≠ a % 2 ^ x.bits) : Memory.get (writeByte p x landed m a b) a' = Memory.get m a' := by
  simp only [writeByte]
  split_ifs with hl
  · simp only [Bool.and_eq_true, decide_eq_true_eq] at hl
    exact Memory.get_set_other m b (by rwa [Nat.mod_eq_of_lt hl.1.2] at h)
  · exact Memory.get_erase_other m h

/-- What one byte of a write leaves at its own address: itself where it lands, else nothing. -/
theorem writeByte_get_self (p : Params) (x : Xlen) (landed : Bool) (m : Memory) (a : Nat) (b : Byte) :
    Memory.get (writeByte p x landed m a b) (a % 2 ^ x.bits) =
      if landed && a < 2 ^ x.bits && !p.isDevice x a then some b else none := by
  simp only [writeByte]
  split_ifs with hl
  · simp only [Bool.and_eq_true, decide_eq_true_eq] at hl
    rw [Nat.mod_eq_of_lt hl.1.2, Memory.get_set_same]
  · exact Memory.get_erase_same m _

/-- A write touches the addresses of its own bytes and nothing else. -/
theorem writeBytes_get_other (p : Params) (x : Xlen) (landed : Bool) (bs : List Byte) :
    ∀ (m : Memory) (a : Nat) {a' : Nat}, (∀ k < bs.length, a' ≠ (a + k) % 2 ^ x.bits) →
      Memory.get (writeBytes p x landed m a bs) a' = Memory.get m a' := by
  induction bs with
  | nil => exact fun _ _ _ _ => rfl
  | cons b bs ih =>
    intro m a a' h
    rw [writeBytes, ih _ _ fun k hk => ?_, writeByte_get_other p x landed m b (by simpa using h 0 (by simp))]
    rw [Nat.add_assoc, Nat.add_comm 1 k]
    exact h (k + 1) (by simpa using hk)

/-- What a write leaves at the address of its byte `k`: that byte where it lands, else nothing. -/
theorem writeBytes_get_self (p : Params) (x : Xlen) (landed : Bool) (bs : List Byte) (hl : bs.length ≤ 2 ^ x.bits) :
    ∀ (m : Memory) (a : Nat) {k : Nat} (hk : k < bs.length),
      Memory.get (writeBytes p x landed m a bs) ((a + k) % 2 ^ x.bits) =
        if landed && a + k < 2 ^ x.bits && !p.isDevice x (a + k) then some bs[k] else none := by
  induction bs with
  | nil => intro _ _ k hk; simp at hk
  | cons b bs ih =>
    intro m a k hk
    rw [List.length_cons] at hl hk
    rw [writeBytes]
    match k with
    | 0 =>
      rw [writeBytes_get_other p x landed bs _ _ fun j hj => ?_]
      · exact writeByte_get_self p x landed m a b
      · cases x <;> simp only [Xlen.bits] at * <;> omega
    | k + 1 =>
      have := ih (by omega) (writeByte p x landed m a b) (a + 1) (k := k) (by omega)
      rwa [Nat.add_assoc, Nat.add_comm 1 k] at this

/-- What `Bus.write` leaves at the address of its byte `k`. -/
theorem Bus.write_get_self (p : Params) {x : Xlen} (bus : Bus x) (a : Addr x) (w : Width) (v : BitVec w.bits) {k : Nat}
    (hk : k < w.bytes) :
    Memory.get (Bus.write p bus a w v).2.mem ((a.toNat + k) % 2 ^ x.bits) =
      if p.busWrite x a w v bus.log == .ok && a.toNat + k < 2 ^ x.bits && !p.isDevice x (a.toNat + k) then
        some (v.extractLsb' (8 * k) 8) else none := by
  have hl : (leBytes w v).length ≤ 2 ^ x.bits := by
    rw [leBytes_length]
    cases w <;> cases x <;> decide
  rw [Bus.write_mem, writeBytes_get_self p x _ _ hl _ _ (by simpa using hk)]
  simp [leBytes]

end Sys2Proof.Machine
end

