-- ==== Sys2Proof/Laws/Encoding.lean ====
section
/-! SUPPORT. The fields of encoded words: every layout is the R layout with immediate bits in some of its
fields, so six slice lemmas serve all six. -/

namespace Sys2Proof

@[simp] theorem Register.ofField_toField (r : Register) : Register.ofField r.toField = r := by
  apply Fin.ext
  simp [Register.ofField, Register.toField]

@[simp] theorem Register.toField_ofField (b : BitVec 5) : (Register.ofField b).toField = b := by
  apply BitVec.eq_of_toNat_eq
  simp [Register.ofField, Register.toField]

section slices
variable (o : BitVec 7) (rd : Register) (f3 : BitVec 3) (rs1 rs2 : Register) (f7 : BitVec 7)

@[simp] theorem encodeR_opcode : (encodeR o rd f3 rs1 rs2 f7).extractLsb' 0 7 = o := by
  apply BitVec.eq_of_getLsbD_eq
  intro i hi
  simp only [encodeR, BitVec.getLsbD_extractLsb', BitVec.getLsbD_append]
  interval_cases i <;> simp

@[simp] theorem encodeR_low : (encodeR o rd f3 rs1 rs2 f7).extractLsb' 0 2 = o.extractLsb' 0 2 := by
  apply BitVec.eq_of_getLsbD_eq
  intro i hi
  simp only [encodeR, BitVec.getLsbD_extractLsb', BitVec.getLsbD_append]
  interval_cases i <;> simp

@[simp] theorem encodeR_rd : (encodeR o rd f3 rs1 rs2 f7).extractLsb' 7 5 = rd.toField := by
  apply BitVec.eq_of_getLsbD_eq
  intro i hi
  simp only [encodeR, BitVec.getLsbD_extractLsb', BitVec.getLsbD_append]
  interval_cases i <;> simp

@[simp] theorem encodeR_funct3 : (encodeR o rd f3 rs1 rs2 f7).extractLsb' 12 3 = f3 := by
  apply BitVec.eq_of_getLsbD_eq
  intro i hi
  simp only [encodeR, BitVec.getLsbD_extractLsb', BitVec.getLsbD_append]
  interval_cases i <;> simp

@[simp] theorem encodeR_rs1 : (encodeR o rd f3 rs1 rs2 f7).extractLsb' 15 5 = rs1.toField := by
  apply BitVec.eq_of_getLsbD_eq
  intro i hi
  simp only [encodeR, BitVec.getLsbD_extractLsb', BitVec.getLsbD_append]
  interval_cases i <;> simp

@[simp] theorem encodeR_rs2 : (encodeR o rd f3 rs1 rs2 f7).extractLsb' 20 5 = rs2.toField := by
  apply BitVec.eq_of_getLsbD_eq
  intro i hi
  simp only [encodeR, BitVec.getLsbD_extractLsb', BitVec.getLsbD_append]
  interval_cases i <;> simp

@[simp] theorem encodeR_funct7 : (encodeR o rd f3 rs1 rs2 f7).extractLsb' 25 7 = f7 := by
  apply BitVec.eq_of_getLsbD_eq
  intro i hi
  simp only [encodeR, BitVec.getLsbD_extractLsb', BitVec.getLsbD_append]
  interval_cases i <;> simp

/-- An I word is an R word with imm[4:0] at rs2 and imm[11:5] at funct7. -/
theorem encodeI_eq_encodeR (imm : BitVec 32) :
    encodeI o rd f3 rs1 imm = encodeR o rd f3 rs1 (.ofField (imm.extractLsb' 0 5)) (imm.extractLsb' 5 7) := by
  apply BitVec.eq_of_getLsbD_eq
  intro i hi
  simp only [encodeI, encodeR, BitVec.getLsbD_append, BitVec.getLsbD_extractLsb', Register.toField_ofField]
  interval_cases i <;> simp

/-- An S word is an R word with imm[4:0] at rd and imm[11:5] at funct7. -/
theorem encodeS_eq_encodeR (imm : BitVec 32) :
    encodeS o f3 rs1 rs2 imm = encodeR o (.ofField (imm.extractLsb' 0 5)) f3 rs1 rs2 (imm.extractLsb' 5 7) := by
  simp [encodeS, encodeR]

/-- A B word is an R word with imm[4:1], imm[11] at rd and imm[12], imm[10:5] at funct7. -/
theorem encodeB_eq_encodeR (imm : BitVec 32) :
    encodeB o f3 rs1 rs2 imm = encodeR o (.ofField (imm.extractLsb' 1 4 ++ imm.extractLsb' 11 1)) f3 rs1 rs2
      (imm.extractLsb' 12 1 ++ imm.extractLsb' 5 6) := by
  apply BitVec.eq_of_getLsbD_eq
  intro i hi
  simp only [encodeB, encodeR, BitVec.getLsbD_append, BitVec.getLsbD_extractLsb', Register.toField_ofField]
  interval_cases i <;> simp

/-- A U word is an R word with imm[31:12] above rd. -/
theorem encodeU_eq_encodeR (imm : BitVec 32) :
    encodeU o rd imm = encodeR o rd (imm.extractLsb' 12 3) (.ofField (imm.extractLsb' 15 5))
      (.ofField (imm.extractLsb' 20 5)) (imm.extractLsb' 25 7) := by
  apply BitVec.eq_of_getLsbD_eq
  intro i hi
  simp only [encodeU, encodeR, BitVec.getLsbD_append, BitVec.getLsbD_extractLsb', Register.toField_ofField]
  interval_cases i <;> simp

/-- A J word is an R word with the scattered immediate above rd. -/
theorem encodeJ_eq_encodeR (imm : BitVec 32) :
    encodeJ o rd imm = encodeR o rd (imm.extractLsb' 12 3) (.ofField (imm.extractLsb' 15 5))
      (.ofField (imm.extractLsb' 1 4 ++ imm.extractLsb' 11 1)) (imm.extractLsb' 20 1 ++ imm.extractLsb' 5 6) := by
  apply BitVec.eq_of_getLsbD_eq
  intro i hi
  simp only [encodeJ, encodeR, BitVec.getLsbD_append, BitVec.getLsbD_extractLsb', Register.toField_ofField]
  interval_cases i <;> simp

end slices

section compressed
variable (o : BitVec 2) (f4 : BitVec 4) (rs1 rs2 : Register)

@[simp] theorem encodeC_op : (encodeC o f4 rs1 rs2).extractLsb' 0 2 = o := by
  apply BitVec.eq_of_getLsbD_eq
  intro i hi
  simp only [encodeC, BitVec.getLsbD_extractLsb', BitVec.getLsbD_append]
  interval_cases i <;> simp

@[simp] theorem encodeC_rs2 : (encodeC o f4 rs1 rs2).extractLsb' 2 5 = rs2.toField := by
  apply BitVec.eq_of_getLsbD_eq
  intro i hi
  simp only [encodeC, BitVec.getLsbD_extractLsb', BitVec.getLsbD_append]
  interval_cases i <;> simp

@[simp] theorem encodeC_rs1 : (encodeC o f4 rs1 rs2).extractLsb' 7 5 = rs1.toField := by
  apply BitVec.eq_of_getLsbD_eq
  intro i hi
  simp only [encodeC, BitVec.getLsbD_extractLsb', BitVec.getLsbD_append]
  interval_cases i <;> simp

@[simp] theorem encodeC_funct4 : (encodeC o f4 rs1 rs2).extractLsb' 12 4 = f4 := by
  apply BitVec.eq_of_getLsbD_eq
  intro i hi
  simp only [encodeC, BitVec.getLsbD_extractLsb', BitVec.getLsbD_append]
  interval_cases i <;> simp

@[simp] theorem encodeC_upper : (encodeC o f4 rs1 rs2).extractLsb' 16 16 = 0#16 := by
  apply BitVec.eq_of_getLsbD_eq
  intro i hi
  simp only [encodeC, BitVec.getLsbD_extractLsb', BitVec.getLsbD_append]
  interval_cases i <;> simp

end compressed

/-- What the map of R72 answers, read as an equation on the opcode. -/
theorem MajorOpcode.ofCode_eq_some (c : BitVec 7) (m : MajorOpcode) : MajorOpcode.ofCode c = some m ↔ c = m.code := by
  cases m <;> (revert c; decide)

@[simp] theorem MajorOpcode.ofCode_code (m : MajorOpcode) : MajorOpcode.ofCode m.code = some m := by
  cases m <;> decide

/-- Every major opcode of R72 is a standard word's. -/
theorem MajorOpcode.code_low (m : MajorOpcode) : m.code.extractLsb' 0 2 = 0b11#2 := by
  cases m <;> decide

section immediates
variable (o : BitVec 7) (rd : Register) (f3 : BitVec 3) (rs1 rs2 : Register)

/-- The I decoder on an I word gives back every immediate the layout can hold. -/
theorem iImmediate_encodeI {imm : BitVec 32} (h : fits12 imm = true) :
    Instruction.iImmediate (encodeI o rd f3 rs1 imm) = imm := by
  simp only [fits12, beq_iff_eq] at h
  conv_rhs => rw [← h]
  apply BitVec.eq_of_getLsbD_eq
  intro i hi
  simp only [Instruction.iImmediate, encodeI, BitVec.getLsbD_sshiftRight, BitVec.getLsbD_signExtend,
    BitVec.getLsbD_extractLsb', BitVec.msb_eq_getLsbD_last, BitVec.getLsbD_append]
  interval_cases i <;> simp

/-- The S decoder on an S word. -/
theorem sImmediate_encodeS {imm : BitVec 32} (h : fits12 imm = true) :
    Instruction.sImmediate (encodeS o f3 rs1 rs2 imm) = imm := by
  simp only [fits12, beq_iff_eq] at h
  conv_rhs => rw [← h]
  apply BitVec.eq_of_getLsbD_eq
  intro i hi
  simp only [Instruction.sImmediate, encodeS, BitVec.getLsbD_sshiftRight, BitVec.getLsbD_signExtend,
    BitVec.getLsbD_extractLsb', BitVec.msb_eq_getLsbD_last, BitVec.getLsbD_append, BitVec.getLsbD_or,
    BitVec.getLsbD_and, BitVec.getLsbD_ushiftRight]
  interval_cases i <;> simp

/-- The B decoder on a B word. -/
theorem bImmediate_encodeB {imm : BitVec 32} (h : fits13Even imm = true) :
    Instruction.bImmediate (encodeB o f3 rs1 rs2 imm) = imm := by
  simp only [fits13Even, beq_iff_eq, Bool.and_eq_true] at h
  obtain ⟨h, h0⟩ := h
  conv_rhs => rw [← h]
  apply BitVec.eq_of_getLsbD_eq
  intro i hi
  simp only [Instruction.bImmediate, encodeB, BitVec.getLsbD_sshiftRight, BitVec.getLsbD_signExtend,
    BitVec.getLsbD_extractLsb', BitVec.msb_eq_getLsbD_last, BitVec.getLsbD_append, BitVec.getLsbD_or,
    BitVec.getLsbD_and, BitVec.getLsbD_shiftLeft, BitVec.getLsbD_ushiftRight]
  interval_cases i <;> simp
  simpa using h0

/-- The U decoder on a U word. -/
theorem uImmediate_encodeU {imm : BitVec 32} (h : fitsUpper imm = true) :
    Instruction.uImmediate (encodeU o rd imm) = imm := by
  simp only [fitsUpper, beq_iff_eq] at h
  have h0 : ∀ i < 12, imm.getLsbD i = false := by
    intro i hi
    simpa [hi] using congrArg (fun v => v.getLsbD i) h
  apply BitVec.eq_of_getLsbD_eq
  intro i hi
  by_cases hi' : i < 12
  · rw [h0 i hi']
    simp only [Instruction.uImmediate, BitVec.getLsbD_and]
    interval_cases i <;> simp
  · simp only [Instruction.uImmediate, encodeU, BitVec.getLsbD_extractLsb', BitVec.getLsbD_append, BitVec.getLsbD_and]
    interval_cases i <;> first | omega | simp

/-- The J decoder on a J word. -/
theorem jImmediate_encodeJ {imm : BitVec 32} (h : fits21Even imm = true) :
    Instruction.jImmediate (encodeJ o rd imm) = imm := by
  simp only [fits21Even, beq_iff_eq, Bool.and_eq_true] at h
  obtain ⟨h, h0⟩ := h
  conv_rhs => rw [← h]
  apply BitVec.eq_of_getLsbD_eq
  intro i hi
  simp only [Instruction.jImmediate, encodeJ, BitVec.getLsbD_sshiftRight, BitVec.getLsbD_signExtend,
    BitVec.getLsbD_extractLsb', BitVec.msb_eq_getLsbD_last, BitVec.getLsbD_append, BitVec.getLsbD_or,
    BitVec.getLsbD_and, BitVec.getLsbD_shiftLeft, BitVec.getLsbD_ushiftRight]
  interval_cases i <;> simp
  simpa using h0

end immediates

/-- The low two bits of a word are those of its opcode field. -/
theorem Instruction.low_eq_opcode_low (w : Instruction) :
    w.extractLsb' 0 2 = (w.extractLsb' 0 7).extractLsb' 0 2 := by
  apply BitVec.eq_of_getLsbD_eq
  intro i hi
  simp only [BitVec.getLsbD_extractLsb']
  interval_cases i <;> simp

/-- The flag `from_parcels` gives is the length test of the Instruction it gives (R91, R92). -/
theorem Instruction.fromParcels_flag (p0 p1 : Parcel) :
    (Instruction.fromParcels p0 p1).2 = Instruction.compressed (Instruction.fromParcels p0 p1).1 := by
  have low : (Instruction.fromParcels p0 p1).1.extractLsb' 0 2 = p0.extractLsb' 0 2 := by
    apply BitVec.eq_of_getLsbD_eq
    intro i hi
    simp only [Instruction.fromParcels, BitVec.getLsbD_extractLsb']
    split_ifs
    · simp [hi, show i < 32 by omega]
    · rw [BitVec.getLsbD_append]; simp [hi, show i < 16 by omega]
  rw [Instruction.compressed, low, Instruction.fromParcels]
  split_ifs <;> simp_all

end Sys2Proof
end

