-- ==== Sys2Proof/Laws/PerInstr.lean ====
section
/-! SUPPORT. Statements for all instructions, made per instruction. OpcodeRow: the word of a well-formed
instruction matches the `mask` and `match` of its row of the opcode table. -/

namespace Sys2Proof.Laws.OpcodeRow

/-- The encoded word belongs to the constructor's row. -/
def Statement (i : Instr) : Prop := i.wf = true → encode i &&& i.row.1 = i.row.2

/-- Masking an R word down to its opcode. -/
theorem encodeR_mask (o : BitVec 7) (rd : Register) (f3 : BitVec 3) (rs1 rs2 : Register) (f7 : BitVec 7) :
    encodeR o rd f3 rs1 rs2 f7 &&& 0x7f#32 = o.setWidth 32 := by
  apply BitVec.eq_of_getLsbD_eq
  intro i hi
  simp only [encodeR, BitVec.getLsbD_append, BitVec.getLsbD_and, BitVec.getLsbD_setWidth]
  interval_cases i <;> simp

/-- The same of a word of another layout, which is an R word. -/
theorem mask_of_eq_encodeR {w : Instruction} {o : BitVec 7} {rd : Register} {f3 : BitVec 3} {rs1 rs2 : Register}
    {f7 : BitVec 7} (h : w = encodeR o rd f3 rs1 rs2 f7) : w &&& 0x7f#32 = o.setWidth 32 :=
  h ▸ encodeR_mask o rd f3 rs1 rs2 f7

theorem encodeR_mask_low (o : BitVec 7) (rd : Register) (f3 : BitVec 3) (rs1 rs2 : Register) (f7 : BitVec 7) :
    encodeR o rd f3 rs1 rs2 f7 &&& 0x3#32 = (o.extractLsb' 0 2).setWidth 32 := by
  apply BitVec.eq_of_getLsbD_eq
  intro i hi
  simp only [encodeR, BitVec.getLsbD_append, BitVec.getLsbD_and, BitVec.getLsbD_setWidth, BitVec.getLsbD_extractLsb']
  interval_cases i <;> simp

theorem encodeC_mask (o : BitVec 2) (f4 : BitVec 4) (rs1 rs2 : Register) :
    encodeC o f4 rs1 rs2 &&& 0x3#32 = o.setWidth 32 := by
  apply BitVec.eq_of_getLsbD_eq
  intro i hi
  simp only [encodeC, BitVec.getLsbD_append, BitVec.getLsbD_and, BitVec.getLsbD_setWidth]
  interval_cases i <;> simp

theorem standard32 (opcode : BitVec 7) (rd : Register) (f3 : BitVec 3) (rs1 rs2 : Register) (f7 : BitVec 7) :
    Statement (.standard32 opcode rd f3 rs1 rs2 f7) := by
  intro h
  have h2 : opcode.extractLsb' 0 2 = 0b11#2 := by
    simp only [Instr.wf, standardOpcodeOk, Bool.and_eq_true, beq_iff_eq] at h
    exact h.1
  exact (encodeR_mask_low ..).trans (by rw [h2]; rfl)

theorem compressedQ0 (f4 : BitVec 4) (rs1 rs2 : Register) : Statement (.compressedQ0 f4 rs1 rs2) :=
  fun _ => encodeC_mask ..

theorem compressedQ1 (f4 : BitVec 4) (rs1 rs2 : Register) : Statement (.compressedQ1 f4 rs1 rs2) :=
  fun _ => encodeC_mask ..

theorem compressedQ2 (f4 : BitVec 4) (rs1 rs2 : Register) : Statement (.compressedQ2 f4 rs1 rs2) :=
  fun _ => encodeC_mask ..

section
variable (rd : Register) (f3 : BitVec 3) (rs1 rs2 : Register) (f7 : BitVec 7) (imm : BitVec 32)

theorem load : Statement (.load rd f3 rs1 imm) := fun _ => mask_of_eq_encodeR (encodeI_eq_encodeR ..)
theorem miscMem : Statement (.miscMem rd f3 rs1 imm) := fun _ => mask_of_eq_encodeR (encodeI_eq_encodeR ..)
theorem opImm : Statement (.opImm rd f3 rs1 imm) := fun _ => mask_of_eq_encodeR (encodeI_eq_encodeR ..)
theorem auipc : Statement (.auipc rd imm) := fun _ => mask_of_eq_encodeR (encodeU_eq_encodeR ..)
theorem opImm32 : Statement (.opImm32 rd f3 rs1 imm) := fun _ => mask_of_eq_encodeR (encodeI_eq_encodeR ..)
theorem store : Statement (.store f3 rs1 rs2 imm) := fun _ => mask_of_eq_encodeR (encodeS_eq_encodeR ..)
theorem op : Statement (.op rd f3 rs1 rs2 f7) := fun _ => encodeR_mask ..
theorem lui : Statement (.lui rd imm) := fun _ => mask_of_eq_encodeR (encodeU_eq_encodeR ..)
theorem op32 : Statement (.op32 rd f3 rs1 rs2 f7) := fun _ => encodeR_mask ..
theorem branch : Statement (.branch f3 rs1 rs2 imm) := fun _ => mask_of_eq_encodeR (encodeB_eq_encodeR ..)
theorem jalr : Statement (.jalr rd f3 rs1 imm) := fun _ => mask_of_eq_encodeR (encodeI_eq_encodeR ..)
theorem jal : Statement (.jal rd imm) := fun _ => mask_of_eq_encodeR (encodeJ_eq_encodeR ..)
theorem system : Statement (.system rd f3 rs1 imm) := fun _ => mask_of_eq_encodeR (encodeI_eq_encodeR ..)

end

end Sys2Proof.Laws.OpcodeRow
end

