-- ==== Sys2Proof/Tests/Slice0.lean ====
section
/-! SUPPORT. Tests: the WellFormed smoke, decoding of words written out from the spec's encodings, one step or
one meaning on a small state, the spec's own vectors, and a witness for the hypotheses of every statement
that has some. Each expected value is the spec's (spec/95_test_vectors.md) or a hand calculation from the
rule named. -/

namespace Sys2Proof.Tests

open Sys2Proof Sys2Proof.Machine

/-! ### WellFormed: one ill-formed term for each check -/

theorem test_wf_refuses_i_immediate_out_of_range : (Instr.load 1 0 2 0x800).wf = false := by decide
theorem test_wf_refuses_s_immediate_out_of_range : (Instr.store 0 1 2 0xfffff7ff).wf = false := by decide
theorem test_wf_refuses_b_immediate_out_of_range : (Instr.branch 0 1 2 0x1000).wf = false := by decide
theorem test_wf_refuses_odd_b_immediate : (Instr.branch 0 1 2 3).wf = false := by decide
theorem test_wf_refuses_u_immediate_low_bits : (Instr.lui 1 0x1001).wf = false := by decide
theorem test_wf_refuses_j_immediate_out_of_range : (Instr.jal 1 0x100000).wf = false := by decide
theorem test_wf_refuses_odd_j_immediate : (Instr.jal 1 5).wf = false := by decide
theorem test_wf_refuses_compressed_opcode : (Instr.standard32 0b0000001 0 0 0 0 0).wf = false := by decide
theorem test_wf_refuses_major_opcode_as_standard32 : (Instr.standard32 0b0110011 0 0 0 0 0).wf = false := by decide

/-! ### Decoding of words written out from the layouts of R61 to R68 -/

theorem test_decode_standard32 :
    decodeInstruction 0b0100101_00111_00010_110_00001_0101111#32 = .standard32 0b0101111 1 6 2 7 0b0100101 := by decide
theorem test_decode_compressedQ0 : decodeInstruction 0b0100_00010_10001_00#32 = .compressedQ0 0b0100 2 17 := by decide
theorem test_decode_compressedQ1 : decodeInstruction 0b1000_11000_11001_01#32 = .compressedQ1 0b1000 24 25 := by decide
theorem test_decode_compressedQ2 : decodeInstruction 0b1000_01010_01011_10#32 = .compressedQ2 0b1000 10 11 := by decide
theorem test_decode_load :
    decodeInstruction 0b100000000000_00110_010_00101_0000011#32 = .load 5 0b010 6 (-2048) := by decide
theorem test_decode_miscMem :
    decodeInstruction 0b000011110101_00011_000_00100_0001111#32 = .miscMem 4 0 3 0xf5 := by decide
theorem test_decode_opImm :
    decodeInstruction 0b0100000_10011_00111_101_10001_0010011#32 = .opImm 17 0b101 7 0x413 := by decide
theorem test_decode_auipc : decodeInstruction 0b10000000000000000001_00101_0010111#32 = .auipc 5 0x80001000 := by decide
theorem test_decode_opImm32 :
    decodeInstruction 0b111111111111_00110_000_01001_0011011#32 = .opImm32 9 0 6 (-1) := by decide
theorem test_decode_store :
    decodeInstruction 0b0111111_11011_11111_010_11111_0100011#32 = .store 0b010 31 27 2047 := by decide
theorem test_decode_op :
    decodeInstruction 0b0100000_00011_00010_000_00001_0110011#32 = .op 1 0 2 3 0b0100000 := by decide
theorem test_decode_lui : decodeInstruction 0b11011110101011010100_01111_0110111#32 = .lui 15 0xdead4000 := by decide
theorem test_decode_op32 :
    decodeInstruction 0b0000001_00110_00101_100_00100_0111011#32 = .op32 4 0b100 5 6 1 := by decide
theorem test_decode_branch :
    decodeInstruction 0b1_111111_01000_01010_111_1110_1_1100011#32 = .branch 0b111 10 8 (-4) := by decide
theorem test_decode_jalr :
    decodeInstruction 0b010011010010_01011_000_11111_1100111#32 = .jalr 31 0 11 1234 := by decide
theorem test_decode_jal :
    decodeInstruction 0b0_0101101010_1_11011110_00111_1101111#32 = .jal 7 0xdead4 := by decide
theorem test_decode_system :
    decodeInstruction 0b001100000101_01010_001_00000_1110011#32 = .system 0 1 10 0x305 := by decide

/-! ### One meaning on a small state: the fields of the vectors of spec/95_test_vectors.md -/

/-- The fields recorded by an outcome's newest entry. -/
def fieldsOf : Host.Outcome State Fault Refusal → Option (List (Accessor × Value))
  | .next t => t.record.head?.map Entry.applied
  | .fault _ => none
  | .refused _ => none

/-- The newest entry's widened immediate, and the fetch position after it, as numbers. -/
def immediateAndPc : Host.Outcome State Fault Refusal → Option (Option Nat × Nat)
  | .next t => t.record.head?.map (fun e => (e.immediate.map BitVec.toNat, t.pc.toNat))
  | .fault _ => none
  | .refused _ => none

/-- A 64-bit machine at 0x1000. -/
def small : State := State.resetAt .x64 0x1000

/-- Section 2.2's `0xffffffff`, every immediate all ones but the bits that are implicitly zero. -/
theorem test_exec_standard32 : fieldsOf (exec (.standard32 0x7f 31 7 31 31 0x7f) small) =
    some [(.opcode, .u8 0x7f), (.rd, .register 31), (.funct3, .u8 7), (.rs1, .register 31), (.rs2, .register 31),
      (.funct7, .u8 0x7f), (.iImmediate, .u32 0xffffffff), (.sImmediate, .u32 0xffffffff),
      (.bImmediate, .u32 0xfffffffe), (.uImmediate, .u32 0xfffff000), (.jImmediate, .u32 0xfffffffe)] := by decide

/-- Section 2.4's `0x4144`. -/
theorem test_exec_compressedQ0 : fieldsOf (exec (.compressedQ0 0b0100 2 17) small) =
    some [(.op, .u8 0), (.compressedRs2, .register 17), (.compressedRs1, .register 2), (.crs2, .register 9),
      (.crs1, .register 10), (.compressedFunct2, .u8 0b10), (.compressedFunct3, .u8 0b010),
      (.compressedFunct4, .u8 0b0100), (.compressedFunct6, .u8 0b010000)] := by decide

/-- Section 2.4's `0x8c65`. -/
theorem test_exec_compressedQ1 : fieldsOf (exec (.compressedQ1 0b1000 24 25) small) =
    some [(.op, .u8 1), (.compressedRs2, .register 25), (.compressedRs1, .register 24), (.crs2, .register 9),
      (.crs1, .register 8), (.compressedFunct2, .u8 0b11), (.compressedFunct3, .u8 0b100),
      (.compressedFunct4, .u8 0b1000), (.compressedFunct6, .u8 0b100011)] := by decide

/-- Section 2.4's `0x852e`, and 2 bytes consumed. -/
theorem test_exec_compressedQ2 : fieldsOf (exec (.compressedQ2 0b1000 10 11) small) =
    some [(.op, .u8 2), (.compressedRs2, .register 11), (.compressedRs1, .register 10), (.crs2, .register 11),
      (.crs1, .register 10), (.compressedFunct2, .u8 0b01), (.compressedFunct3, .u8 0b100),
      (.compressedFunct4, .u8 0b1000), (.compressedFunct6, .u8 0b100001)] := by decide
theorem test_exec_compressedQ2_advances : immediateAndPc (exec (.compressedQ2 0b1000 10 11) small) =
    some (none, 0x1002) := by decide

/-- Section 2.3: `0xfffff800` becomes `0xffff_ffff_ffff_f800` at XLEN 64. -/
theorem test_exec_load : immediateAndPc (exec (.load 5 0b010 6 0xfffff800) small) =
    some (some 0xfffffffffffff800, 0x1004) := by decide
theorem test_exec_load_fields : fieldsOf (exec (.load 5 0b010 6 0xfffff800) small) =
    some [(.opcode, .u8 0x03), (.rd, .register 5), (.funct3, .u8 0b010), (.rs1, .register 6),
      (.iImmediate, .u32 0xfffff800)] := by decide
theorem test_exec_miscMem : fieldsOf (exec (.miscMem 4 0 3 0xf5) small) =
    some [(.opcode, .u8 0x0f), (.rd, .register 4), (.funct3, .u8 0), (.rs1, .register 3),
      (.iImmediate, .u32 0xf5)] := by decide

/-- Fixture S1: the shift amount is `rs2`, X19. -/
theorem test_exec_opImm : fieldsOf (exec (.opImm 17 0b101 7 0x413) small) =
    some [(.opcode, .u8 0b0010011), (.rd, .register 17), (.funct3, .u8 0b101), (.rs1, .register 7),
      (.iImmediate, .u32 0x413), (.funct7, .u8 0b0100000), (.rs2, .register 19)] := by decide
theorem test_exec_auipc : immediateAndPc (exec (.auipc 5 0x80001000) small) =
    some (some 0xffffffff80001000, 0x1004) := by decide
theorem test_exec_opImm32 : fieldsOf (exec (.opImm32 9 0 6 (-1)) small) =
    some [(.opcode, .u8 0x1b), (.rd, .register 9), (.funct3, .u8 0), (.rs1, .register 6),
      (.iImmediate, .u32 0xffffffff)] := by decide

/-- Fixture S3. -/
theorem test_exec_store : fieldsOf (exec (.store 0b010 31 27 0x7ff) small) =
    some [(.opcode, .u8 0b0100011), (.funct3, .u8 0b010), (.rs1, .register 31), (.rs2, .register 27),
      (.sImmediate, .u32 0x7ff)] := by decide
theorem test_exec_op : fieldsOf (exec (.op 1 0 2 3 0b0100000) small) =
    some [(.opcode, .u8 0x33), (.rd, .register 1), (.funct3, .u8 0), (.rs1, .register 2), (.rs2, .register 3),
      (.funct7, .u8 0b0100000)] := by decide

/-- Section 2.3: `0xdead4000` (U) becomes `0xffff_ffff_dead_4000` at XLEN 64. -/
theorem test_exec_lui : immediateAndPc (exec (.lui 15 0xdead4000) small) =
    some (some 0xffffffffdead4000, 0x1004) := by decide
theorem test_exec_op32 : immediateAndPc (exec (.op32 4 0b100 5 6 1) small) = some (none, 0x1004) := by decide

/-- Fixture S4. -/
theorem test_exec_branch : fieldsOf (exec (.branch 0b111 10 8 0xfffffffc) small) =
    some [(.opcode, .u8 0b1100011), (.funct3, .u8 0b111), (.rs1, .register 10), (.rs2, .register 8),
      (.bImmediate, .u32 0xfffffffc)] := by decide

/-- Fixture S2. -/
theorem test_exec_jalr : fieldsOf (exec (.jalr 31 0 11 1234) small) =
    some [(.opcode, .u8 0b1100111), (.rd, .register 31), (.funct3, .u8 0), (.rs1, .register 11),
      (.iImmediate, .u32 0x4d2)] := by decide

/-- Fixture S6. -/
theorem test_exec_jal : fieldsOf (exec (.jal 7 0xdead4) small) =
    some [(.opcode, .u8 0b1101111), (.rd, .register 7), (.jImmediate, .u32 0xdead4)] := by decide
theorem test_exec_system : fieldsOf (exec (.system 0 1 10 0x305) small) =
    some [(.opcode, .u8 0x73), (.rd, .register 0), (.funct3, .u8 1), (.rs1, .register 10),
      (.iImmediate, .u32 0x305)] := by decide

/-! ### One step: the programs of spec/95_test_vectors.md section 3 -/

/-- Address, backing value, flag and next address of the step's record. -/
def recordOf : Host.Outcome State Fault Refusal → Option (Nat × BitVec 32 × Bool × Nat)
  | .next t => t.record.head?.map (fun e => (e.addr.toNat, e.inst, e.flag, t.pc.toNat))
  | .fault _ => none
  | .refused _ => none

/-- P1's third row: a 32-bit instruction at an address that is 2 mod 4. -/
theorem test_step_p1_lui_straddles :
    recordOf (step ((State.resetAt .x32 0x1006).loadImage 0x1006 [0xb7, 0x47, 0xad, 0xde, 0xaa, 0x85])) =
      some (0x1006, 0xdead47b7, false, 0x100a) := by decide

/-- P2's first row: a compressed instruction followed by the first half of a standard one. -/
theorem test_step_p2_compressed :
    recordOf (step ((State.resetAt .x32 0x2000).loadImage 0x2000 [0x44, 0x41, 0xe3, 0x7e])) =
      some (0x2000, 0x00004144, true, 0x2002) := by decide

/-- P4: nothing is known past the image, and the record does not depend on it. -/
theorem test_step_p4_last_parcel :
    recordOf (step ((State.resetAt .x32 0x4000).loadImage 0x4000 [0x01, 0x00])) =
      some (0x4000, 0x00000001, true, 0x4002) := by decide

theorem test_withFetchWord_runs_first :
    recordOf (step (State.reset.withFetchWord 32 0x2d5de3ef)) = some (0, 0x2d5de3ef, false, 4) := by decide
theorem test_withFetchWord_at_the_top :
    recordOf (step ((State.resetAt .x32 0xfffffffe).withFetchWord 24 0x5008b3)) =
      some (0, 0x005008b3, false, 4) := by decide

/-! ### Vectors of spec/95_test_vectors.md -/

theorem test_i_immediate_smallest : Instruction.iImmediate 0x80000013 = 0xfffff800 := by decide
theorem test_s_immediate_masks_rs2 : Instruction.sImmediate 0x01f00023 = 0 := by decide
theorem test_b_immediate_smallest : Instruction.bImmediate 0x80000063 = 0xfffff000 := by decide
theorem test_b_immediate_bit7 : Instruction.bImmediate 0x000000e3 = 0x800 := by decide
theorem test_u_immediate_low_bits : Instruction.uImmediate 0x00000fff = 0 := by decide
theorem test_j_immediate_smallest : Instruction.jImmediate 0x8000006f = 0xfff00000 := by decide
theorem test_j_immediate_bit20 : Instruction.jImmediate 0x0010006f = 0x800 := by decide
theorem test_long_prefix_is_standard : Instruction.standard 0x0000001f = true := by decide
theorem test_upper_half_kept : Instruction.compressed (Instruction.new 0xffff0505) = true := by decide
theorem test_from_parcels_extremes : Instruction.fromParcels 0xfffe 0xffff = (0x0000fffe, true) := by decide
theorem test_compressed_field_extremes :
    (Instruction.crs1 0xfffd, Instruction.crs2 0xfffd, Instruction.compressedFunct6 0xfffd) = (15, 15, 0b111111#8) := by
  decide
theorem test_register_new_limit : (Register.new 31, Register.new 32) = (some 31, none) := by decide
theorem test_register_renders : Register.render 17 = "x17" := by decide
theorem test_xlen_max : (Xlen.max .x32, Xlen.max .x64) = (0xffffffff#32, 0xffffffffffffffff#64) := by decide
theorem test_cause_bit31_at_64 :
    (Cause.interrupt (x := .x64) 0x80000000#64, Cause.code (x := .x64) 0x80000000#64) = (false, 0x80000000#64) := by decide
theorem test_cause_interrupt_at_32 :
    (Cause.interrupt (x := .x32) 0x80000000#32, Cause.code (x := .x32) 0x80000000#32) = (true, 0#32) := by decide
theorem test_cause_above_seven : Cause.exception (x := .x32) 0x7fffffff#32 = none := by decide
theorem test_decode_truncated : decode [0x13, 0x05, 0x50] = .error .truncated := by decide
theorem test_wrong_width_refused :
    Accessor.use .crs1 0x4133d893 = .error (.wrongWidthAccessor .crs1) := by rfl

/-! ### Witnesses: concrete states and operands that meet each statement's hypotheses -/

/-- Collaborators whose writes all succeed on memory. -/
def okBus : Params := { (default : Params) with busWrite := fun _ _ _ _ _ => .ok, isDevice := fun _ _ => false }

/-- Collaborators whose writes all succeed and of whose addresses one is a device's. -/
def deviceBus : Params := { okBus with isDevice := fun _ a => a == 0x1001 }

/-- Collaborators that refuse every write for one reason. -/
def failingBus (o : WriteOutcome) : Params := { (default : Params) with busWrite := fun _ _ _ _ _ => o }

theorem witness_FromParcels_compressed : (0x0505#16).toNat % 4 ≠ 3 := by decide
theorem witness_FromParcels_standard : (0xd893#16).toNat % 4 = 3 := by decide
theorem witness_CompressedAccessorsReadOnlyTheLowHalf :
    (0x00000505#32).extractLsb' 0 16 = (0xffff0505#32).extractLsb' 0 16 ∧ Accessor.crs1 ∈ compressedAccessors := by
  decide
theorem witness_ImmediateUpperBits : 11 ≤ 31 ∧ 12 ≤ 31 ∧ 20 ≤ 31 ∧ 31 < 32 := by decide
theorem witness_ImmediatesIgnoreOtherFields_I :
    (0x000fffff#32).extractLsb' 20 12 = (0x00000013#32).extractLsb' 20 12 := by decide
theorem witness_ImmediatesIgnoreOtherFields_SB :
    (0x01f00023#32).extractLsb' 25 7 = (0x00000023#32).extractLsb' 25 7 ∧
    (0x01f00023#32).extractLsb' 7 5 = (0x00000023#32).extractLsb' 7 5 := by decide
theorem witness_ImmediatesIgnoreOtherFields_UJ :
    (0xfffff037#32).extractLsb' 12 20 = (0xffffffff#32).extractLsb' 12 20 := by decide
theorem witness_RegisterNew : (31#8).toNat ≤ 31 ∧ 31 < (32#8).toNat := by decide
theorem witness_ReadSeesOwnOkWrite_whole :
    okBus.busWrite .x32 0xfffffffc .w32 0xdead47b7 [] = .ok ∧ (0xfffffffc#32).toNat + Width.w32.bytes ≤ 2 ^ 32 ∧
    ∀ k < Width.w32.bytes, okBus.isDevice .x32 ((0xfffffffc#32).toNat + k) = false :=
  ⟨rfl, by decide, fun _ _ => rfl⟩

/-- A write that lies partly past the top: its byte 1 lands in the last byte, its byte 2 has no place. -/
theorem witness_ReadSeesOwnOkWrite_top :
    okBus.busWrite .x32 0xfffffffe .w32 0xdead47b7 [] = .ok ∧ 2 < Width.w32.bytes ∧
    (0xfffffffe#32).toNat + 1 < 2 ^ 32 ∧ okBus.isDevice .x32 ((0xfffffffe#32).toNat + 1) = false ∧
    (0xfffffffd#32).toNat + 2 = (0xfffffffe#32).toNat + 1 ∧ 2 ^ 32 ≤ (0xfffffffe#32).toNat + 2 :=
  ⟨rfl, by decide, by decide, rfl, by decide, by decide⟩

/-- A write of which byte 1 alone is a device's. -/
theorem witness_ReadSeesOwnOkWrite_device :
    deviceBus.busWrite .x64 0x1000 .w16 0x852e [] = .ok ∧ deviceBus.isDevice .x64 ((0x1000#64).toNat + 0) = false ∧
    deviceBus.isDevice .x64 ((0x1000#64).toNat + 1) = true := ⟨rfl, by decide, by decide⟩
theorem witness_WriteLeavesOtherBytes :
    0x1004 < 2 ^ Xlen.x32.bits ∧ ∀ k < Width.w32.bytes, 0x1004 ≠ ((0x1000#32).toNat + k) % 2 ^ Xlen.x32.bits := by decide
theorem witness_FailedWriteLeavesItsBytesOpen :
    (failingBus .unmapped).busWrite .x32 0xffffffff .w16 1 [] ≠ .ok ∧ 1 < Width.w16.bytes ∧
    (0xfffffffc#32).toNat + 3 = ((0xffffffff#32).toNat + 0) % 2 ^ Xlen.x32.bits ∧
    (0#32).toNat + 0 = ((0xffffffff#32).toNat + 1) % 2 ^ Xlen.x32.bits := by decide
theorem witness_FailedWriteReportsItsCause :
    (failingBus .misaligned).busWrite .x64 1 .w16 0 [] = .misaligned ∧
    (failingBus .outOfRange).busWrite .x64 1 .w16 0 [] = .outOfRange ∧
    (failingBus .unmapped).busWrite .x64 1 .w16 0 [] = .unmapped ∧ okBus.busWrite .x64 1 .w16 0 [] = .ok := by decide
theorem witness_DecodeOfEncodeIsIdentity : (Instr.branch 0b111 10 8 (-4)).wf = true := by decide
theorem witness_DecodeOfEncodedBytes : (Instr.jal 31 0xfff00000).wf = true := by decide
theorem witness_EncodeOfDecodeIsTheWord :
    Instruction.standard 0x0000001f = true ∧ Instruction.compressed 0xffff0505 = true := by decide
theorem witness_DecodeFollowsTheOpcodeTable :
    (Instr.load 0 0 0 0).row.1 = 0x7f ∧ 0x80032283#32 &&& (Instr.load 0 0 0 0).row.1 = (Instr.load 0 0 0 0).row.2 := by
  decide
theorem witness_IFormat_immediates : fits12 0x7ff = true ∧ fits12 0xfffff800 = true := by decide
theorem witness_Branch_immediates : fits13Even 0xffe = true ∧ fits13Even 0xfffff000 = true := by decide
theorem witness_Upper_immediates : fitsUpper 0xfffff000 = true ∧ fitsUpper 0 = true := by decide
theorem witness_Jal_immediates : fits21Even 0xffffe = true ∧ fits21Even 0xfff00000 = true := by decide
theorem witness_InstructionsLeaveTheHartAlone : ∃ t, exec (.store 0b010 31 27 0x7ff) State.reset = .next t := ⟨_, rfl⟩
theorem witness_WrongWidthUseIsRefused :
    Accessor.rd ∈ standardAccessors ∧ Accessor.crs2 ∈ compressedAccessors ∧
    Instruction.standard 0x4133d893 = true ∧ Instruction.compressed 0x852e = true := by decide

/-- The last parcel of the address space holds a compressed instruction. -/
def topState : State := (State.resetAt .x32 0xfffffffe).loadImage 0xfffffffe [0x2e, 0x85]

theorem witness_StepRunsTheDecodedInstruction_top :
    (Instr.compressedQ2 0b1000 10 11).wf = true ∧
    topState.pc.toNat + (encodeBytes (.compressedQ2 0b1000 10 11)).length ≤ 2 ^ topState.xlen.bits ∧
    Bus.Holds topState.hart.bus topState.pc.toNat (encodeBytes (.compressedQ2 0b1000 10 11)) :=
  ⟨by decide, by decide, by decide, by decide, trivial⟩

/-- A standard instruction in the last four bytes. -/
def topState4 : State := (State.resetAt .x32 0xfffffffc).loadImage 0xfffffffc [0xe3, 0x7e, 0x85, 0xfe]

theorem witness_StepRunsTheDecodedInstruction_standard :
    (Instr.branch 0b111 10 8 (-4)).wf = true ∧
    topState4.pc.toNat + (encodeBytes (.branch 0b111 10 8 (-4))).length ≤ 2 ^ topState4.xlen.bits ∧
    Bus.Holds topState4.hart.bus topState4.pc.toNat (encodeBytes (.branch 0b111 10 8 (-4))) :=
  ⟨by decide, by decide, by decide, by decide, by decide, by decide, trivial⟩
theorem witness_AdvanceIsTwoOrFourBytes :
    (0xfffffffa#32).toNat + 4 < 2 ^ Xlen.x32.bits ∧ (0xfffffffc#32).toNat + 2 < 2 ^ Xlen.x32.bits ∧
    (0xfffffffe#32).getLsbD 0 = false := by decide
theorem witness_StepOnlyReadsTheBus : ∃ t, step (State.reset.withFetchWord 32 0x7fbfafa3) = .next t := ⟨_, rfl⟩

/-- A compressed parcel written to the last parcel of the address space. -/
theorem witness_StoreToTheFetchPosition_parcel :
    okBus.busWrite topState.xlen topState.pc .w16 0x852e topState.hart.bus.log = .ok ∧ 0 + 2 ≤ Width.w16.bytes ∧
    topState.pc.toNat + 2 ≤ 2 ^ topState.xlen.bits ∧
    (∀ j < 2, okBus.isDevice topState.xlen (topState.pc.toNat + j) = false) ∧
    (BitVec.extractLsb' (8 * 0) 16 0x852e#16).toNat % 4 ≠ 3 :=
  ⟨rfl, by decide, by decide, fun _ _ => rfl, by decide⟩

/-- A standard word written to the last four bytes of the address space. -/
theorem witness_StoreToTheFetchPosition_word :
    okBus.busWrite topState4.xlen topState4.pc .w32 0x4133d893 topState4.hart.bus.log = .ok ∧
    0 + 4 ≤ Width.w32.bytes ∧ topState4.pc.toNat + 4 ≤ 2 ^ topState4.xlen.bits ∧
    ∀ j < 4, okBus.isDevice topState4.xlen (topState4.pc.toNat + j) = false :=
  ⟨rfl, by decide, by decide, fun _ _ => rfl⟩

/-- Byte writes over part of a standard instruction: its last byte, at the top of the address space, and its first. -/
theorem witness_StoreToTheFetchPosition_byte :
    okBus.busWrite topState4.xlen (0xffffffff#32) .w8 0xfe topState4.hart.bus.log = .ok ∧ 0 < Width.w8.bytes ∧
    topState4.pc.toNat + 3 = (0xffffffff#32).toNat + 0 ∧ topState4.pc.toNat + 3 < 2 ^ topState4.xlen.bits ∧
    okBus.isDevice topState4.xlen (topState4.pc.toNat + 3) = false ∧
    topState4.pc.toNat + 0 = (0xfffffffc#32).toNat + 0 := ⟨rfl, by decide, by decide, by decide, rfl, by decide⟩

/-- A 64-bit write whose upper half covers the fetch position. -/
theorem witness_StoreToTheFetchPosition_upper_half :
    okBus.busWrite small.xlen (0xffc#64) .w64 0x4133d893_0000852e small.hart.bus.log = .ok ∧
    small.pc.toNat = (0xffc#64).toNat + 4 ∧ 4 + 4 ≤ Width.w64.bytes ∧ small.pc.toNat + 4 ≤ 2 ^ small.xlen.bits ∧
    ∀ j < 4, okBus.isDevice small.xlen (small.pc.toNat + j) = false :=
  ⟨rfl, by decide, by decide, by decide, fun _ _ => rfl⟩

/-- A state that meets the invariant with something listed and something recorded. -/
def ranState : State :=
  { (State.resetAt .x32 0x1002).loadImage 0x1000 [0x05, 0x05, 0x2e, 0x85] with
    pc := nextAddress Config.params (0x1000#32) 2,
    record := [{ addr := 0x1000#32, inst := 0x0505, flag := true, applied := [(.op, .u8 1)], immediate := none }] }

theorem ranState_inv : ranState.Inv where
  canonical := Bus.canonical_load (x := .x32) (l := []) _ _ ⟨List.Pairwise.nil, by simp [State.resetAt, Hart.reset]⟩
  aligned := by decide
  sound := by
    intro e he
    obtain rfl := List.mem_singleton.1 he
    exact ⟨by decide, by decide, by decide, fun av h => by obtain rfl := List.mem_singleton.1 h; rfl⟩
  consecutive := ⟨rfl, trivial⟩
theorem witness_StepKeepsTheInvariant : ranState.Inv ∧ ∃ t, step ranState = .next t := ⟨ranState_inv, _, rfl⟩
theorem witness_ContractCallsKeepTheInvariant : ranState.Inv := ranState_inv
theorem witness_ResetMeetsTheInvariant : (0x80000000#32).getLsbD 0 = false := by decide

end Sys2Proof.Tests
end

