-- ==== Sys2Proof/Proofs/Scope.lean ====
section
/-! PROOFS. The obligations of spec/00_scope.md: the frame of an instruction, what its outputs depend on, and the
refusal of a wrong-width use. The first two follow from `exec_eq_retire_uniform`, which says all that an instruction
can do. -/

namespace Sys2Proof

/-! ### The use of an accessor -/

theorem Instruction.standard_eq_not_compressed (w : Instruction) :
    Instruction.standard w = !Instruction.compressed w := (Bool.not_not _).symm

theorem Accessor.meaningful_of_mem_standard {a : Accessor} (h : a ∈ standardAccessors) (w : Instruction) :
    a.meaningful w = Instruction.standard w := by
  fin_cases h <;> rfl

theorem Accessor.meaningful_of_mem_compressed {a : Accessor} (h : a ∈ compressedAccessors) (w : Instruction) :
    a.meaningful w = Instruction.compressed w := by
  fin_cases h <;> rfl

theorem Accessor.use_eq_ok {a : Accessor} {w : Instruction} (h : a.meaningful w = true) :
    a.use w = .ok (a.value w) := if_pos h

theorem Accessor.use_eq_refusal {a : Accessor} {w : Instruction} (h : a.meaningful w = false) :
    a.use w = .error (.wrongWidthAccessor a) := if_neg (Bool.eq_false_iff.mp h)

end Sys2Proof

namespace Sys2Proof.Machine

/-! ### The frame of `State.recorded` -/

section recorded
variable (s : State) (n : Nat) (e : Entry s.xlen)

@[simp] theorem State.recorded_xlen : (s.recorded n e).xlen = s.xlen := rfl
@[simp] theorem State.recorded_pc : (s.recorded n e).pc = nextAddress Config.params s.pc n := rfl
@[simp] theorem State.recorded_hart : (s.recorded n e).hart = s.hart := rfl
@[simp] theorem State.recorded_record : (s.recorded n e).record = e :: s.record := rfl

end recorded

/-- An instruction records one entry and advances by its own length, and does nothing else. -/
theorem exec_eq_recorded (i : Instr) (s : State) :
    ∃ e, exec i s = .next (s.recorded (advanceBytes i.isCompressed) e) := by
  obtain ⟨as, imm, retires, -⟩ := exec_eq_retire i s
  exact ⟨_, retires⟩

/-! ### The obligations -/

/-- Settles O41: the next state is `s.recorded n e`, whose Hart is the old one. -/
theorem instructionsLeaveTheHartAlone : Obligations.InstructionsLeaveTheHartAlone := by
  intro i s t h
  obtain ⟨e, recorded⟩ := exec_eq_recorded i s
  obtain rfl : s.recorded (advanceBytes i.isCompressed) e = t := Host.Outcome.next.inj (recorded.symm.trans h)
  refine ⟨⟨_, e, rfl⟩, ?_⟩
  simp

/-- Settles O42: the word, flag, accessors and 32-bit immediate are those that `exec_eq_retire_uniform` gives the
instruction before any state is named; a state adds its fetch position and its width. -/
theorem outputsDependOnTheInstructionAlone : Obligations.OutputsDependOnTheInstructionAlone := by
  intro i
  obtain ⟨as, imm, -, retires⟩ := exec_eq_retire_uniform i
  refine ⟨encode i, i.isCompressed, applyAccessors as (encode i), imm, fun s => ?_⟩
  have widened : (imm.map (widenImmediate s.xlen)).map BitVec.toNat =
      imm.map (fun v => (widenImmediate s.xlen v).toNat) := Option.map_map ..
  exact ⟨_, _, retires s, rfl, rfl, rfl, rfl, rfl, widened⟩

/-- Settles O43: an accessor of a class has a meaning for exactly the words of that class, and no word is of both. -/
theorem wrongWidthUseIsRefused : Obligations.WrongWidthUseIsRefused := by
  intro w
  have exclusive := Instruction.standard_eq_not_compressed w
  constructor
  · intro a ha
    have meaning := Accessor.meaningful_of_mem_standard ha w
    exact ⟨fun hs => Accessor.use_eq_ok (meaning.trans hs),
      fun hc => Accessor.use_eq_refusal (by rw [meaning, exclusive, hc, Bool.not_true])⟩
  · intro a ha
    have meaning := Accessor.meaningful_of_mem_compressed ha w
    exact ⟨fun hc => Accessor.use_eq_ok (meaning.trans hc),
      fun hs => Accessor.use_eq_refusal (by rw [meaning, ← Bool.not_eq_true', ← exclusive, hs])⟩

end Sys2Proof.Machine
end

