-- ==== Sys2Proof/Proofs/State.lean ====
section
/-! PROOFS. The obligations of spec/10_state.md: the register file, the advance of the fetch position, and what the
execution core's contract calls keep. -/

namespace Sys2Proof

/-! ### The parity of an address (R47) -/

/-- Bit 0 of an address is its parity. -/
theorem Addr.even_iff {x : Xlen} (a : Addr x) : a.getLsbD 0 = false ↔ a.toNat % 2 = 0 := by
  rw [← BitVec.testBit_toNat, Nat.testBit_zero]
  simp

theorem advanceBytes_even (flag : Bool) : advanceBytes flag % 2 = 0 := by
  cases flag <;> rfl

end Sys2Proof

namespace Sys2Proof.Machine

/-- Past the top of the address space the next address is free but for its bit 0, which is masked away. -/
theorem nextAddress_even_past_top (p : Params) {x : Xlen} (a : Addr x) {n : Nat} (h : ¬ a.toNat + n < 2 ^ x.bits) :
    (nextAddress p a n).getLsbD 0 = false := by
  simp [nextAddress, h]

/-- An even distance on from an even address is an even address, below the top and past it. -/
theorem nextAddress_even (p : Params) {x : Xlen} {a : Addr x} {n : Nat} (ha : a.getLsbD 0 = false) (hn : n % 2 = 0) :
    (nextAddress p a n).getLsbD 0 = false := by
  by_cases below : a.toNat + n < 2 ^ x.bits
  · rw [Addr.even_iff] at ha ⊢
    rw [nextAddress_toNat p a below]
    omega
  · exact nextAddress_even_past_top p a below

/-! ### The register file (R27) -/

/-- A load depends on the Hart through its history of stores alone. -/
theorem Hart.loadRegister_congr (p : Params) {x : Xlen} {h h' : Hart x} (same : h.regStores = h'.regStores)
    (r : Register) : Hart.loadRegister p h r = Hart.loadRegister p h' r :=
  congrArg (p.hartRegs x · r) same

/-! ### The invariant across a contract call -/

/-- Of the Hart, the invariant speaks of the bus contents only. -/
theorem State.inv_withHart {s : State} (inv : s.Inv) {h : Hart s.xlen} (canonical : h.bus.Canonical) :
    (s.withHart h).Inv where
  canonical := canonical
  aligned := inv.aligned
  sound := inv.sound
  consecutive := inv.consecutive

theorem State.inv_withBus {s : State} (inv : s.Inv) {b : Bus s.xlen} (canonical : b.Canonical) : (s.withBus b).Inv :=
  State.inv_withHart inv canonical

/-! ### The obligations -/

/-- Settles O47: `nextAddress_toNat` and `nextAddress_even` at the two distances of the flag. -/
theorem advanceIsTwoOrFourBytes : Obligations.AdvanceIsTwoOrFourBytes := by
  intro p x a flag
  exact ⟨nextAddress_toNat p a, fun even => nextAddress_even p even (advanceBytes_even flag)⟩

/-- Settles O52: a contract call replaces the Hart, and its bus stays canonical. -/
theorem contractCallsKeepTheInvariant : Obligations.ContractCallsKeepTheInvariant := by
  intro p s a w v r u inv
  refine ⟨?write, ?read, ?store⟩
  case write => exact State.inv_withBus inv (Bus.canonical_write p a w v inv.canonical)
  case read => exact State.inv_withBus inv (Bus.canonical_read p a w inv.canonical)
  case store =>
    refine State.inv_withHart inv ?_
    rw [Hart.storeRegister_bus]
    exact inv.canonical

/-- Settles O21: a store extends the history and keeps the bus; a load looks at the history and not at the bus. -/
theorem registerFileIsItsStoreHistory : Obligations.RegisterFileIsItsStoreHistory := by
  intro p x h r v
  refine ⟨Hart.storeRegister_bus h r v, fun r' => ?_, fun b r' => Hart.loadRegister_congr p rfl r'⟩
  rw [Hart.loadRegister_def, Hart.storeRegister_regStores]

end Sys2Proof.Machine
end

