-- ==== Sys2Proof/Proofs/Memory.lean ====
section
/-! PROOFS. The obligations of spec/20_memory.md: what a bus call does to the bytes and the Causes, the bytes of an
instruction, and what a step, whose only bus calls are its two parcel reads, does to the machine. The bytes and the
step rest on the decoder and the encoder undoing each other, which stands first. -/

namespace Sys2Proof

/-! ### The length class decides the decoding (R60) -/

theorem Instruction.standard_iff (w : Instruction) : Instruction.standard w = true ↔ w.extractLsb' 0 2 = 0b11#2 :=
  beq_iff_eq

theorem Instruction.compressed_iff (w : Instruction) : Instruction.compressed w = true ↔ w.extractLsb' 0 2 ≠ 0b11#2 :=
  bne_iff_ne

theorem Instruction.standard_of_not_compressed {w : Instruction} (h : ¬ Instruction.compressed w = true) :
    Instruction.standard w = true := by
  rwa [Instruction.standard_iff, ← not_ne_iff, ← Instruction.compressed_iff]

theorem decodeInstruction_of_standard {w : Instruction} (h : Instruction.standard w = true) :
    decodeInstruction w = decodeStandard w := by
  rw [Instruction.standard_iff] at h
  simp [decodeInstruction, Instruction.lengthClass, h]

/-- A compressed word lies in one of the three quadrants, and decodes to that quadrant's row. -/
theorem decodeInstruction_of_compressed {w : Instruction} (h : Instruction.compressed w = true) :
    (w.extractLsb' 0 2 = 0b00#2 ∧
      decodeInstruction w = .compressedQ0 (w.extractLsb' 12 4) w.compressedRs1 w.compressedRs2) ∨
    (w.extractLsb' 0 2 = 0b01#2 ∧
      decodeInstruction w = .compressedQ1 (w.extractLsb' 12 4) w.compressedRs1 w.compressedRs2) ∨
    (w.extractLsb' 0 2 = 0b10#2 ∧
      decodeInstruction w = .compressedQ2 (w.extractLsb' 12 4) w.compressedRs1 w.compressedRs2) := by
  have quadrants : ∀ b : BitVec 2, b ≠ 0b11#2 → b = 0b00#2 ∨ b = 0b01#2 ∨ b = 0b10#2 := by decide
  rw [Instruction.compressed_iff] at h
  obtain low | low | low := quadrants _ h
  · exact .inl ⟨low, by simp [decodeInstruction, Instruction.lengthClass, low]⟩
  · exact .inr (.inl ⟨low, by simp [decodeInstruction, Instruction.lengthClass, low]⟩)
  · exact .inr (.inr ⟨low, by simp [decodeInstruction, Instruction.lengthClass, low]⟩)

theorem isCompressed_decodeStandard (w : Instruction) : (decodeStandard w).isCompressed = false := by
  unfold decodeStandard
  split <;> rfl

/-- What a word decodes to is of the word's own length class. -/
theorem isCompressed_decodeInstruction (w : Instruction) :
    (decodeInstruction w).isCompressed = Instruction.compressed w := by
  by_cases h : Instruction.compressed w = true
  · obtain ⟨-, row⟩ | ⟨-, row⟩ | ⟨-, row⟩ := decodeInstruction_of_compressed h <;> rw [row, h] <;> rfl
  · rw [decodeInstruction_of_standard (Instruction.standard_of_not_compressed h), isCompressed_decodeStandard,
      Bool.eq_false_iff.2 h]

/-! ### A layout filled with a word's own fields is the word (R61 to R67) -/

section refill
variable (w : Instruction)

theorem encodeR_of_fields :
    encodeR (w.extractLsb' 0 7) w.rd (w.extractLsb' 12 3) w.rs1 w.rs2 (w.extractLsb' 25 7) = w := by
  apply BitVec.eq_of_getLsbD_eq
  intro i hi
  simp only [encodeR, Instruction.rd, Instruction.rs1, Instruction.rs2, Register.toField_ofField,
    BitVec.getLsbD_append, BitVec.getLsbD_extractLsb']
  interval_cases i <;> simp

theorem encodeI_of_fields : encodeI (w.extractLsb' 0 7) w.rd (w.extractLsb' 12 3) w.rs1 w.iImmediate = w := by
  apply BitVec.eq_of_getLsbD_eq
  intro i hi
  simp only [encodeI, Instruction.rd, Instruction.rs1, Register.toField_ofField, Instruction.iImmediate,
    BitVec.getLsbD_append, BitVec.getLsbD_extractLsb', BitVec.getLsbD_sshiftRight]
  interval_cases i <;> simp

theorem encodeS_of_fields : encodeS (w.extractLsb' 0 7) (w.extractLsb' 12 3) w.rs1 w.rs2 w.sImmediate = w := by
  apply BitVec.eq_of_getLsbD_eq
  intro i hi
  simp only [encodeS, Instruction.rs1, Instruction.rs2, Register.toField_ofField, Instruction.sImmediate,
    BitVec.getLsbD_append, BitVec.getLsbD_extractLsb', BitVec.getLsbD_or, BitVec.getLsbD_and,
    BitVec.getLsbD_sshiftRight, BitVec.getLsbD_ushiftRight]
  interval_cases i <;> simp

theorem encodeB_of_fields : encodeB (w.extractLsb' 0 7) (w.extractLsb' 12 3) w.rs1 w.rs2 w.bImmediate = w := by
  apply BitVec.eq_of_getLsbD_eq
  intro i hi
  simp only [encodeB, Instruction.rs1, Instruction.rs2, Register.toField_ofField, Instruction.bImmediate,
    BitVec.getLsbD_append, BitVec.getLsbD_extractLsb', BitVec.getLsbD_or, BitVec.getLsbD_and,
    BitVec.getLsbD_shiftLeft, BitVec.getLsbD_sshiftRight, BitVec.getLsbD_ushiftRight]
  interval_cases i <;> simp

theorem encodeU_of_fields : encodeU (w.extractLsb' 0 7) w.rd w.uImmediate = w := by
  apply BitVec.eq_of_getLsbD_eq
  intro i hi
  simp only [encodeU, Instruction.rd, Register.toField_ofField, Instruction.uImmediate, BitVec.getLsbD_append,
    BitVec.getLsbD_extractLsb', BitVec.getLsbD_and]
  interval_cases i <;> simp

theorem encodeJ_of_fields : encodeJ (w.extractLsb' 0 7) w.rd w.jImmediate = w := by
  apply BitVec.eq_of_getLsbD_eq
  intro i hi
  simp only [encodeJ, Instruction.rd, Register.toField_ofField, Instruction.jImmediate, BitVec.getLsbD_append,
    BitVec.getLsbD_extractLsb', BitVec.getLsbD_or, BitVec.getLsbD_and, BitVec.getLsbD_shiftLeft,
    BitVec.getLsbD_sshiftRight, BitVec.getLsbD_ushiftRight]
  interval_cases i <;> simp

/-- The fields of a compressed word cover its low half, and no more (R67, R69). -/
theorem encodeC_of_fields : encodeC (w.extractLsb' 0 2) (w.extractLsb' 12 4) w.compressedRs1 w.compressedRs2 =
    (w.extractLsb' 0 16).setWidth 32 := by
  apply BitVec.eq_of_getLsbD_eq
  intro i hi
  simp only [encodeC, Instruction.compressedRs1, Instruction.compressedRs2, Register.toField_ofField,
    BitVec.getLsbD_append, BitVec.getLsbD_extractLsb', BitVec.getLsbD_setWidth]
  interval_cases i <;> simp

end refill

/-! ### Encoding what a word decodes to -/

/-- Decoding a standard word by its opcode loses no bit of it. -/
theorem encode_decodeStandard (w : Instruction) : encode (decodeStandard w) = w := by
  unfold decodeStandard
  split
  next => exact encodeR_of_fields w
  all_goals
    next major =>
      rw [MajorOpcode.ofCode_eq_some] at major
      simp only [encode, ← major, encodeR_of_fields, encodeI_of_fields, encodeS_of_fields, encodeB_of_fields,
        encodeU_of_fields, encodeJ_of_fields]

/-- Decoding a standard word loses no bit of it. -/
theorem encode_decodeInstruction_of_standard {w : Instruction} (h : Instruction.standard w = true) :
    encode (decodeInstruction w) = w := by
  rw [decodeInstruction_of_standard h, encode_decodeStandard]

/-- Decoding a compressed word loses its upper half only (R69). -/
theorem encode_decodeInstruction_of_compressed {w : Instruction} (h : Instruction.compressed w = true) :
    encode (decodeInstruction w) = (w.extractLsb' 0 16).setWidth 32 := by
  obtain ⟨low, row⟩ | ⟨low, row⟩ | ⟨low, row⟩ := decodeInstruction_of_compressed h <;>
    rw [row, ← encodeC_of_fields, low] <;> rfl

/-! ### Decoding the word of a well-formed instruction -/

section fields
variable (o : BitVec 7) (rd : Register) (f3 : BitVec 3) (rs1 rs2 : Register) (f7 : BitVec 7)

@[simp] theorem Instruction.rd_encodeR : Instruction.rd (encodeR o rd f3 rs1 rs2 f7) = rd := by
  rw [Instruction.rd, encodeR_rd, Register.ofField_toField]

@[simp] theorem Instruction.rs1_encodeR : Instruction.rs1 (encodeR o rd f3 rs1 rs2 f7) = rs1 := by
  rw [Instruction.rs1, encodeR_rs1, Register.ofField_toField]

@[simp] theorem Instruction.rs2_encodeR : Instruction.rs2 (encodeR o rd f3 rs1 rs2 f7) = rs2 := by
  rw [Instruction.rs2, encodeR_rs2, Register.ofField_toField]

end fields

section compressedFields
variable (o : BitVec 2) (f4 : BitVec 4) (rs1 rs2 : Register)

@[simp] theorem Instruction.compressedRs1_encodeC : Instruction.compressedRs1 (encodeC o f4 rs1 rs2) = rs1 := by
  rw [Instruction.compressedRs1, encodeC_rs1, Register.ofField_toField]

@[simp] theorem Instruction.compressedRs2_encodeC : Instruction.compressedRs2 (encodeC o f4 rs1 rs2) = rs2 := by
  rw [Instruction.compressedRs2, encodeC_rs2, Register.ofField_toField]

end compressedFields

/-- The opcode of a well-formed standard instruction chooses its row again, every layout is an R word, and each
format's decoder gives back the immediate. -/
theorem decodeStandard_encode : ∀ {i : Instr}, i.wf = true → i.isCompressed = false → decodeStandard (encode i) = i
  | .standard32 .., wf, _ => by
    simp only [Instr.wf, standardOpcodeOk, Bool.and_eq_true, Option.isNone_iff_eq_none] at wf
    simp [decodeStandard, encode, wf.2]
  | .op .., _, _ | .op32 .., _, _ => by simp [decodeStandard, encode]
  | .load .., wf, _ | .miscMem .., wf, _ | .opImm .., wf, _ | .opImm32 .., wf, _ | .jalr .., wf, _
  | .system .., wf, _ => by
    rw [decodeStandard, encode, iImmediate_encodeI _ _ _ _ wf]
    simp [encodeI_eq_encodeR]
  | .store .., wf, _ => by
    rw [decodeStandard, encode, sImmediate_encodeS _ _ _ _ wf]
    simp [encodeS_eq_encodeR]
  | .branch .., wf, _ => by
    rw [decodeStandard, encode, bImmediate_encodeB _ _ _ _ wf]
    simp [encodeB_eq_encodeR]
  | .auipc .., wf, _ | .lui .., wf, _ => by
    rw [decodeStandard, encode, uImmediate_encodeU _ _ wf]
    simp [encodeU_eq_encodeR]
  | .jal .., wf, _ => by
    rw [decodeStandard, encode, jImmediate_encodeJ _ _ wf]
    simp [encodeJ_eq_encodeR]

/-- The word of a well-formed instruction is of the instruction's own length class (R60). -/
theorem compressed_encode : ∀ {i : Instr}, i.wf = true → Instruction.compressed (encode i) = i.isCompressed
  | .standard32 .., wf => by
    simp only [Instr.wf, standardOpcodeOk, Bool.and_eq_true, beq_iff_eq] at wf
    simp [Instruction.compressed, encode, wf.1, Instr.isCompressed]
  | .compressedQ0 .., _ | .compressedQ1 .., _ | .compressedQ2 .., _ => by
    simp [Instruction.compressed, encode, Instr.isCompressed]
  | .load .., _ | .miscMem .., _ | .opImm .., _ | .auipc .., _ | .opImm32 .., _ | .store .., _ | .op .., _ | .lui .., _
  | .op32 .., _ | .branch .., _ | .jalr .., _ | .jal .., _ | .system .., _ => by
    simp [Instruction.compressed, encode, encodeI_eq_encodeR, encodeS_eq_encodeR, encodeB_eq_encodeR,
      encodeU_eq_encodeR, encodeJ_eq_encodeR, MajorOpcode.code_low, Instr.isCompressed]

/-- The word of a compressed instruction has its upper half zero (R69). -/
theorem encode_upper : ∀ {i : Instr}, i.isCompressed = true → (encode i).extractLsb' 16 16 = 0#16
  | .compressedQ0 .., _ | .compressedQ1 .., _ | .compressedQ2 .., _ => encodeC_upper ..

/-- A well-formed instruction is what its word decodes to. -/
theorem decodeInstruction_encode {i : Instr} (wf : i.wf = true) : decodeInstruction (encode i) = i := by
  by_cases short : i.isCompressed = true
  · match i, short with
    | .compressedQ0 .., _ | .compressedQ1 .., _ | .compressedQ2 .., _ =>
      simp [decodeInstruction, Instruction.lengthClass, encode]
  · have long : ¬ Instruction.compressed (encode i) = true := by rwa [compressed_encode wf]
    rw [decodeInstruction_of_standard (Instruction.standard_of_not_compressed long)]
    exact decodeStandard_encode wf (Bool.eq_false_iff.2 short)

/-! ### The Instruction of two parcels (R91) -/

theorem Instruction.fromParcels_of_compressed {p0 : Parcel} (p1 : Parcel) (h : p0.extractLsb' 0 2 ≠ 0b11#2) :
    Instruction.fromParcels p0 p1 = (p0.setWidth 32, true) :=
  if_pos (bne_iff_ne.2 h)

theorem Instruction.fromParcels_of_standard {p0 : Parcel} (p1 : Parcel) (h : p0.extractLsb' 0 2 = 0b11#2) :
    Instruction.fromParcels p0 p1 = (p1 ++ p0, false) :=
  if_neg (by simp [h])

/-- The Instruction of a compressed parcel has its upper half zero (R69). -/
theorem Instruction.fromParcels_upper {p0 p1 : Parcel} (h : (Instruction.fromParcels p0 p1).2 = true) :
    (Instruction.fromParcels p0 p1).1.extractLsb' 16 16 = 0#16 := by
  by_cases low : p0.extractLsb' 0 2 = 0b11#2
  · rw [Instruction.fromParcels_of_standard p1 low] at h
    exact absurd h Bool.false_ne_true
  · rw [Instruction.fromParcels_of_compressed p1 low]
    apply BitVec.eq_of_getLsbD_eq
    intro i hi
    simp

/-- A word whose upper half is zero is its low half. -/
theorem Instruction.lowHalf_of_upper {w : Instruction} (h : w.extractLsb' 16 16 = 0#16) :
    (w.extractLsb' 0 16).setWidth 32 = w := by
  have upper := congrArg BitVec.toNat h
  apply BitVec.eq_of_toNat_eq
  simp only [BitVec.extractLsb'_toNat, BitVec.toNat_setWidth, Nat.shiftRight_eq_div_pow, BitVec.toNat_ofNat] at upper ⊢
  omega

/-- The Instruction that two parcels build is the word of what it decodes to, of either length class. -/
theorem encode_decodeInstruction_fromParcels (p0 p1 : Parcel) :
    encode (decodeInstruction (Instruction.fromParcels p0 p1).1) = (Instruction.fromParcels p0 p1).1 := by
  by_cases h : Instruction.compressed (Instruction.fromParcels p0 p1).1 = true
  · rw [encode_decodeInstruction_of_compressed h]
    exact Instruction.lowHalf_of_upper (Instruction.fromParcels_upper ((Instruction.fromParcels_flag p0 p1).trans h))
  · exact encode_decodeInstruction_of_standard (Instruction.standard_of_not_compressed h)

theorem isCompressed_decodeInstruction_fromParcels (p0 p1 : Parcel) :
    (decodeInstruction (Instruction.fromParcels p0 p1).1).isCompressed = (Instruction.fromParcels p0 p1).2 := by
  rw [isCompressed_decodeInstruction, Instruction.fromParcels_flag]

/-! ### The bytes of a word (R45, R46) -/

/-- Two neighbouring bytes of a word are the parcel that stands there. -/
theorem parcelOfBytes_extractLsb' (w : Instruction) (n : Nat) :
    parcelOfBytes (w.extractLsb' n 8) (w.extractLsb' (n + 8) 8) = w.extractLsb' n 16 := by
  rw [parcelOfBytes]
  exact BitVec.extractLsb'_append_extractLsb'_eq_extractLsb' (by omega)

theorem Instruction.low_extractLsb' (w : Instruction) : (w.extractLsb' 0 16).extractLsb' 0 2 = w.extractLsb' 0 2 := by
  apply BitVec.eq_of_getLsbD_eq
  intro i hi
  simp [hi]

/-- The low parcel of a compressed word builds its low half, whatever the second parcel (R91). -/
theorem Instruction.fromParcels_lowHalf {w : Instruction} (short : Instruction.compressed w = true) (p1 : Parcel) :
    Instruction.fromParcels (w.extractLsb' 0 16) p1 = ((w.extractLsb' 0 16).setWidth 32, true) := by
  rw [Instruction.compressed_iff, ← Instruction.low_extractLsb'] at short
  exact Instruction.fromParcels_of_compressed p1 short

/-- The two parcels of a standard word build it (R45). -/
theorem Instruction.fromParcels_halves {w : Instruction} (long : Instruction.standard w = true) :
    Instruction.fromParcels (w.extractLsb' 0 16) (w.extractLsb' 16 16) = (w, false) := by
  rw [Instruction.standard_iff, ← Instruction.low_extractLsb'] at long
  rw [Instruction.fromParcels_of_standard _ long, BitVec.extractLsb'_append_extractLsb'_eq_extractLsb' (by rfl)]
  simp

/-- The first parcel alone decides the flag (R91). -/
theorem Instruction.fromParcels_flag_congr (p0 p1 p1' : Parcel) :
    (Instruction.fromParcels p0 p1).2 = (Instruction.fromParcels p0 p1').2 := by
  by_cases low : p0.extractLsb' 0 2 = 0b11#2
  · rw [Instruction.fromParcels_of_standard _ low, Instruction.fromParcels_of_standard _ low]
  · rw [Instruction.fromParcels_of_compressed _ low, Instruction.fromParcels_of_compressed _ low]

theorem decode_of_compressed {b0 b1 : Byte} {w : Instruction} (rest : List Byte)
    (built : Instruction.fromParcels (parcelOfBytes b0 b1) 0 = (w, true)) :
    decode (b0 :: b1 :: rest) = .ok (decodeInstruction w, rest) := by
  simp only [decode, built]

theorem decode_of_standard {b0 b1 b2 b3 : Byte} {w : Instruction} (rest : List Byte)
    (built : Instruction.fromParcels (parcelOfBytes b0 b1) (parcelOfBytes b2 b3) = (w, false)) :
    decode (b0 :: b1 :: b2 :: b3 :: rest) = .ok (decodeInstruction w, rest) := by
  have flag : (Instruction.fromParcels (parcelOfBytes b0 b1) 0).2 = false := by
    rw [Instruction.fromParcels_flag_congr _ _ (parcelOfBytes b2 b3), built]
  simp only [decode, flag, built]

/-! ### What a row records -/

/-- Accessors of a word's own length class are each used with a meaning (R94). -/
theorem Accessor.use_of_mem_applyAccessors {as : List Accessor} {w : Instruction}
    (own : as ⊆ (if Instruction.compressed w then compressedAccessors else standardAccessors))
    {av : Accessor × Value} (h : av ∈ applyAccessors as w) : Accessor.use av.1 w = .ok av.2 := by
  obtain ⟨a, ha, rfl⟩ := List.mem_map.1 h
  have mem := own ha
  apply Accessor.use_eq_ok
  split_ifs at mem with short
  · exact (Accessor.meaningful_of_mem_compressed mem w).trans short
  · exact (Accessor.meaningful_of_mem_standard mem w).trans (Instruction.standard_of_not_compressed short)

/-! ### The Cause of an exception code (R142) -/

theorem Cause.toNat_ofException (x : Xlen) (e : ExceptionCode) : (Cause.ofException x e).toNat = e.number := by
  cases x <;> cases e <;> rfl

end Sys2Proof

namespace Sys2Proof.Machine

/-! ### The bytes of a write (R42, R53) -/

section write
variable (p : Params) {x : Xlen} (bus : Bus x) (a : Addr x) (w : Width) (v : BitVec w.bits)

/-- A byte of an `Ok` write that has a place and is no device's is listed there (R53). -/
theorem Bus.write_get_landed {k : Nat} (ok : p.busWrite x a w v bus.log = .ok) (hk : k < w.bytes)
    (place : a.toNat + k < 2 ^ x.bits) (memory : p.isDevice x (a.toNat + k) = false) :
    Memory.get (Bus.write p bus a w v).2.mem (a.toNat + k) = some (v.extractLsb' (8 * k) 8) := by
  have self := Bus.write_get_self p bus a w v hk
  rw [Nat.mod_eq_of_lt place] at self
  rw [self]
  simp [ok, place, memory]

/-- A byte of a write that failed, that has no place or that is a device's is unlisted (R42, U4, N21). -/
theorem Bus.write_get_lost {k : Nat} (hk : k < w.bytes)
    (lost : p.busWrite x a w v bus.log ≠ .ok ∨ 2 ^ x.bits ≤ a.toNat + k ∨ p.isDevice x (a.toNat + k) = true) :
    Memory.get (Bus.write p bus a w v).2.mem ((a.toNat + k) % 2 ^ x.bits) = none := by
  rw [Bus.write_get_self p bus a w v hk]
  apply if_neg
  simp only [Bool.and_eq_true, beq_iff_eq, decide_eq_true_eq, Bool.not_eq_true']
  rintro ⟨⟨ok, place⟩, memory⟩
  obtain failed | top | device := lost
  · exact failed ok
  · exact Nat.not_lt.2 top place
  · exact Bool.false_ne_true (memory.symm.trans device)

/-- The bytes of a write that all land stand listed from its address on. -/
theorem Bus.holds_write (ok : p.busWrite x a w v bus.log = .ok) (places : a.toNat + w.bytes ≤ 2 ^ x.bits)
    (memory : ∀ k < w.bytes, p.isDevice x (a.toNat + k) = false) :
    Bus.Holds (Bus.write p bus a w v).2 a.toNat (leBytes w v) := by
  refine Bus.holds_of_get fun k hk => ?_
  rw [leBytes_length] at hk
  rw [Bus.write_get_landed p bus a w v ok hk (by omega) (memory k hk)]
  simp [leBytes]

end write

section readU8
variable (p : Params) {x : Xlen} {bus : Bus x} {addr : Addr x}

theorem Bus.readU8_of_get {b : Byte} (h : Memory.get bus.mem addr.toNat = some b) :
    (Bus.readU8 p bus addr).1 = b := by
  rw [Bus.readU8_eq_byteAt]
  exact Bus.byteAt_of_get p .w8 addr.isLt h

theorem Bus.readU8_of_get_none (h : Memory.get bus.mem addr.toNat = none) :
    (Bus.readU8 p bus addr).1 = p.busRead x addr .w8 bus.log := by
  rw [Bus.readU8_eq_byteAt, Bus.byteAt_of_get_none p .w8 h]
  exact BitVec.extractLsb'_eq_self

end readU8

/-! ### The Cause of a write (R43, R156) -/

section causes
variable (p : Params) {x : Xlen} (bus : Bus x) (a : Addr x) (w : Width) (v : BitVec w.bits)

/-- A write that gives no Cause to its caller adds none to those that have flowed back. -/
theorem Bus.reportedCauses_write_of_ok (ok : (Bus.write p bus a w v).1 = .ok) :
    Bus.reportedCauses (Bus.write p bus a w v).2 = Bus.reportedCauses bus := by
  rw [Bus.write_result] at ok
  rw [Bus.reportedCauses, Bus.write_log, ok]
  rfl

/-- The Cause a write gives to its caller is the one it adds to those that have flowed back. -/
theorem Bus.reportedCauses_write_of_err {c : Cause x} (err : (Bus.write p bus a w v).1 = .err c) :
    Bus.reportedCauses (Bus.write p bus a w v).2 = c :: Bus.reportedCauses bus := by
  rw [Bus.write_result] at err
  rw [Bus.reportedCauses, Bus.write_log, err]
  rfl

/-- A write that fails for a reason with an exception code reports that code's Cause (R43, D10). -/
theorem Bus.write_reports_exception {e : ExceptionCode}
    (raises : writeException (p.busWrite x a w v bus.log) = some e) :
    ∃ c : Cause x, c.toNat = e.number ∧ (Bus.write p bus a w v).1 = .err c ∧
      Bus.reportedCauses (Bus.write p bus a w v).2 = c :: Bus.reportedCauses bus := by
  have err : (Bus.write p bus a w v).1 = .err (Cause.ofException x e) := by
    rw [Bus.write_result, writeResult, raises]
  exact ⟨_, Cause.toNat_ofException x e, err, Bus.reportedCauses_write_of_err p bus a w v err⟩

end causes

/-! ### The step -/

/-- Everything one step can do, without the decoder: it fetches, it records at the fetch position the Instruction and
the flag the two parcels build, with accessors that have a meaning for it, and it advances by that flag. -/
theorem step_eq_recorded (s : State) :
    ∃ e : Entry s.xlen, step s = .next ((s.fetch Config.params).2.recorded (advanceBytes e.flag) e) ∧
      e.addr = s.pc ∧ (e.inst, e.flag) = (s.fetch Config.params).1 ∧
      ∀ av ∈ e.applied, Accessor.use av.1 e.inst = .ok av.2 := by
  obtain ⟨as, imm, steps, own⟩ := step_eq_retire s
  have word : encode (decodeInstruction (s.fetch Config.params).1.1) = (s.fetch Config.params).1.1 :=
    encode_decodeInstruction_fromParcels _ _
  have flag : (decodeInstruction (s.fetch Config.params).1.1).isCompressed = (s.fetch Config.params).1.2 :=
    isCompressed_decodeInstruction_fromParcels _ _
  have length := isCompressed_decodeInstruction (s.fetch Config.params).1.1
  rw [word, flag] at steps
  rw [length] at own
  exact ⟨⟨s.pc, _, _, _, imm.map (widenImmediate s.xlen)⟩, steps, rfl, rfl,
    fun _ => Accessor.use_of_mem_applyAccessors own⟩

/-- A record of what two parcels build, at an even address, is one the fetch loop may hold. -/
theorem Entry.sound_of_fromParcels {x : Xlen} {e : Entry x} {p0 p1 : Parcel} (aligned : e.addr.getLsbD 0 = false)
    (built : (e.inst, e.flag) = Instruction.fromParcels p0 p1)
    (meaning : ∀ av ∈ e.applied, Accessor.use av.1 e.inst = .ok av.2) : e.Sound := by
  have inst : e.inst = (Instruction.fromParcels p0 p1).1 := congrArg Prod.fst built
  have flag : e.flag = (Instruction.fromParcels p0 p1).2 := congrArg Prod.snd built
  refine ⟨aligned, ?flag, ?upperZero, meaning⟩
  case flag => rw [flag, inst, Instruction.fromParcels_flag]
  case upperZero =>
    rw [flag, inst]
    exact Instruction.fromParcels_upper

/-- One more record of the fetch loop, at the fetch position, keeps the invariant. -/
theorem State.inv_recorded {s : State} (inv : s.Inv) {e : Entry s.xlen} (sound : e.Sound) (addr : e.addr = s.pc) :
    (s.recorded (advanceBytes e.flag) e).Inv where
  canonical := inv.canonical
  aligned := nextAddress_even _ inv.aligned (advanceBytes_even e.flag)
  sound := List.forall_mem_cons.2 ⟨sound, inv.sound⟩
  consecutive := ⟨congrArg (nextAddress Config.params · _) addr.symm, addr ▸ inv.consecutive⟩

/-- A fetch is two reads, which keep the bus canonical. -/
theorem State.inv_fetch (p : Params) {s : State} (inv : s.Inv) : (s.fetch p).2.Inv :=
  State.inv_withBus inv (Bus.canonical_read p _ _ (Bus.canonical_read p _ _ inv.canonical))

/-! ### The obligations -/

/-- Settles O50: the fetch keeps the invariant, and what `step_eq_recorded` says of the new record makes it sound. -/
theorem stepKeepsTheInvariant : Obligations.StepKeepsTheInvariant := by
  intro s t inv h
  obtain ⟨e, steps, addr, built, meaning⟩ := step_eq_recorded s
  obtain rfl := Host.Outcome.next.inj (steps.symm.trans h)
  have aligned : e.addr.getLsbD 0 = false := addr ▸ inv.aligned
  exact State.inv_recorded (State.inv_fetch _ inv) (Entry.sound_of_fromParcels aligned built meaning) addr

/-- Settles O23: `Bus.write_get_landed` for the bytes that land, `Bus.write_get_lost` for the others. -/
theorem readSeesOwnOkWrite : Obligations.ReadSeesOwnOkWrite := by
  intro p x bus a w v ok
  refine ⟨?result, ?landed, ?lost, ?whole⟩
  case result => rw [Bus.write_result, ok]; rfl
  case landed =>
    intro k hk place memory
    have listed := Bus.write_get_landed p bus a w v ok hk place memory
    refine ⟨?_, fun a' w' j same => ?_⟩
    · have addr : (a + BitVec.ofNat x.bits k).toNat = a.toNat + k := by simpa using Nat.mod_eq_of_lt place
      exact Bus.readU8_of_get p (addr ▸ listed)
    · rw [← same] at place listed
      exact Bus.byteAt_of_get p w' place listed
  case lost => exact fun k hk lost => Bus.write_get_lost p bus a w v hk (.inr lost)
  case whole =>
    exact fun places memory => Bus.readValue_of_holds p places (Bus.holds_write p bus a w v ok places memory)

/-- Settles O24: `writeBytes_get_other`, whatever the outcome. -/
theorem writeLeavesOtherBytes : Obligations.WriteLeavesOtherBytes := by
  intro p x bus a w v a' _ other
  rw [Bus.write_mem]
  exact writeBytes_get_other p x _ _ _ _ (by rwa [leBytes_length])

/-- Settles O25: every byte of a failed write is unlisted, and an unlisted byte reads as `busRead`'s. -/
theorem failedWriteLeavesItsBytesOpen : Obligations.FailedWriteLeavesItsBytesOpen := by
  intro p x bus a w v failed k hk
  have unlisted := Bus.write_get_lost p bus a w v hk (.inl failed)
  refine ⟨unlisted, fun a' w' j same => ?_, ?_⟩
  · exact Bus.byteAt_of_get_none p w' (same ▸ unlisted)
  · exact Bus.readU8_of_get_none p (by rwa [BitVec.toNat_ofNat])

/-- Settles O26: `Bus.write_reports_exception` at the code of each reason. -/
theorem failedWriteReportsItsCause : Obligations.FailedWriteReportsItsCause := by
  intro p x bus a w v
  refine ⟨?misaligned, ?fault, ?ok, rfl, Bus.read_mem p bus a w⟩
  case misaligned => exact fun h => Bus.write_reports_exception p bus a w v (e := .storeMisaligned) (by rw [h]; rfl)
  case fault =>
    exact fun h => Bus.write_reports_exception p bus a w v (e := .storeFault) (by obtain h | h := h <;> rw [h] <;> rfl)
  case ok =>
    intro h
    have ok : (Bus.write p bus a w v).1 = .ok := by rw [Bus.write_result, h]; rfl
    exact ⟨ok, Bus.reportedCauses_write_of_ok p bus a w v ok⟩

/-- Settles O32: the parcels of the encoded bytes build the word again, and the word decodes to the instruction. -/
theorem decodeOfEncodedBytes : Obligations.DecodeOfEncodedBytes := by
  intro i rest wf
  have length := compressed_encode wf
  have decoded := decodeInstruction_encode wf
  by_cases short : i.isCompressed = true
  · have built := Instruction.fromParcels_lowHalf (length.trans short) 0
    rw [Instruction.lowHalf_of_upper (encode_upper short), ← parcelOfBytes_extractLsb'] at built
    rw [encodeBytes, if_pos short]
    exact (decode_of_compressed rest built).trans (by rw [decoded])
  · have long : ¬ Instruction.compressed (encode i) = true := by rwa [length]
    have built := Instruction.fromParcels_halves (Instruction.standard_of_not_compressed long)
    rw [← parcelOfBytes_extractLsb', ← parcelOfBytes_extractLsb'] at built
    rw [encodeBytes, if_neg short]
    exact (decode_of_standard rest built).trans (by rw [decoded])

/-- Settles O48: `step_eq_recorded` with the two reads of the fetch written out; `State.recorded` and
`State.withBus` leave the rest as it is by definition. -/
theorem stepOnlyReadsTheBus : Obligations.StepOnlyReadsTheBus := by
  intro s t h first second
  obtain ⟨e, steps, addr, built, meaning⟩ := step_eq_recorded s
  obtain rfl := Host.Outcome.next.inj (steps.symm.trans h)
  exact ⟨⟨e, rfl, addr, built, meaning⟩, rfl, rfl, fun p r => rfl, fun a => rfl, rfl, rfl, rfl, rfl⟩

end Sys2Proof.Machine
end

