-- ==== Sys2Proof/Proofs/Encoding.lean ====
section
/-! PROOFS. The obligations of spec/30_encoding.md: the length class, the fields and the immediates of every word, the
decoder against the encoder and the opcode table, and what each row records. The fields and the immediates are said
once, of every word; the rows follow by reading them off the word of their operands. -/

namespace Sys2Proof

/-! ### The length class (R60) -/

/-- The low two bits of each length class. -/
def LengthClass.low : LengthClass → BitVec 2
  | .compressedQ0 => 0b00
  | .compressedQ1 => 0b01
  | .compressedQ2 => 0b10
  | .standard32 => 0b11

theorem Instruction.lengthClass_eq_iff (w : Instruction) (c : LengthClass) :
    Instruction.lengthClass w = c ↔ w.extractLsb' 0 2 = c.low := by
  unfold Instruction.lengthClass
  generalize w.extractLsb' 0 2 = low
  revert low
  cases c <;> decide

theorem Instruction.low_eq_iff (w : Instruction) (low : BitVec 2) :
    w.extractLsb' 0 2 = low ↔ w.toNat % 4 = low.toNat := by
  rw [← BitVec.toNat_inj, BitVec.extractLsb'_toNat, Nat.shiftRight_zero]

/-! ### Fields as numbers (R9) -/

theorem Register.val_ofField (b : BitVec 5) : (Register.ofField b).val = b.toNat := rfl

theorem Register.val_abbreviated (b : BitVec 3) : (Register.abbreviated b).val = b.toNat + 8 := rfl

theorem Instruction.toNat_slice (w : Instruction) (p n : Nat) :
    (w.extractLsb' p n).toNat = w.toNat / 2 ^ p % 2 ^ n := by
  rw [BitVec.extractLsb'_toNat, Nat.shiftRight_eq_div_pow]

/-- A field of at most eight bits is returned as a `u8` without loss (R12). -/
theorem Instruction.toNat_u8_slice (w : Instruction) (p : Nat) {n : Nat} (fits : n ≤ 8) :
    ((w.extractLsb' p n).setWidth 8).toNat = w.toNat / 2 ^ p % 2 ^ n := by
  rw [BitVec.toNat_setWidth_of_le fits, Instruction.toNat_slice]

theorem Instruction.toNat_compressedFunct2 (w : Instruction) :
    (Instruction.compressedFunct2 w).toNat = w.toNat / 2 ^ 5 % 2 ^ 2 := Instruction.toNat_u8_slice w 5 (by decide)

theorem Instruction.toNat_compressedFunct3 (w : Instruction) :
    (Instruction.compressedFunct3 w).toNat = w.toNat / 2 ^ 13 % 2 ^ 3 := Instruction.toNat_u8_slice w 13 (by decide)

theorem Instruction.toNat_compressedFunct4 (w : Instruction) :
    (Instruction.compressedFunct4 w).toNat = w.toNat / 2 ^ 12 % 2 ^ 4 := Instruction.toNat_u8_slice w 12 (by decide)

theorem Instruction.toNat_compressedFunct6 (w : Instruction) :
    (Instruction.compressedFunct6 w).toNat = w.toNat / 2 ^ 10 % 2 ^ 6 := Instruction.toNat_u8_slice w 10 (by decide)

/-- A field inside the low half is the same of two words with the same low half. -/
theorem Instruction.slice_congr_lowHalf {w w' : Instruction} (same : w.extractLsb' 0 16 = w'.extractLsb' 0 16)
    {p n : Nat} (inside : p + n ≤ 16) : w.extractLsb' p n = w'.extractLsb' p n := by
  rw [← BitVec.extractLsb'_extractLsb'_of_le inside, same, BitVec.extractLsb'_extractLsb'_of_le inside]

/-! ### The immediate decoders are their layouts (R62 to R66) -/

section layouts
variable (w : Instruction)

theorem Instruction.iImmediate_eq_layout : Instruction.iImmediate w = (w.extractLsb' 20 12).signExtend 32 := by
  apply BitVec.eq_of_getLsbD_eq
  intro i hi
  simp only [Instruction.iImmediate, BitVec.getLsbD_sshiftRight, BitVec.getLsbD_signExtend, BitVec.getLsbD_extractLsb',
    BitVec.msb_eq_getLsbD_last]
  interval_cases i <;> simp

theorem Instruction.sImmediate_eq_layout :
    Instruction.sImmediate w = (w.extractLsb' 25 7 ++ w.extractLsb' 7 5).signExtend 32 := by
  apply BitVec.eq_of_getLsbD_eq
  intro i hi
  simp only [Instruction.sImmediate, BitVec.getLsbD_sshiftRight, BitVec.getLsbD_signExtend, BitVec.getLsbD_extractLsb',
    BitVec.msb_eq_getLsbD_last, BitVec.getLsbD_append, BitVec.getLsbD_or, BitVec.getLsbD_and,
    BitVec.getLsbD_ushiftRight]
  interval_cases i <;> simp

theorem Instruction.bImmediate_eq_layout : Instruction.bImmediate w =
    (w.extractLsb' 31 1 ++ w.extractLsb' 7 1 ++ w.extractLsb' 25 6 ++ w.extractLsb' 8 4 ++ 0#1).signExtend 32 := by
  apply BitVec.eq_of_getLsbD_eq
  intro i hi
  simp only [Instruction.bImmediate, BitVec.getLsbD_sshiftRight, BitVec.getLsbD_signExtend, BitVec.getLsbD_extractLsb',
    BitVec.msb_eq_getLsbD_last, BitVec.getLsbD_append, BitVec.getLsbD_or, BitVec.getLsbD_and,
    BitVec.getLsbD_shiftLeft, BitVec.getLsbD_ushiftRight]
  interval_cases i <;> simp

theorem Instruction.uImmediate_eq_layout : Instruction.uImmediate w = w.extractLsb' 12 20 ++ 0#12 := by
  apply BitVec.eq_of_getLsbD_eq
  intro i hi
  simp only [Instruction.uImmediate, BitVec.getLsbD_extractLsb', BitVec.getLsbD_append, BitVec.getLsbD_and]
  interval_cases i <;> simp

theorem Instruction.jImmediate_eq_layout : Instruction.jImmediate w =
    (w.extractLsb' 31 1 ++ w.extractLsb' 12 8 ++ w.extractLsb' 20 1 ++ w.extractLsb' 21 10 ++ 0#1).signExtend 32 := by
  apply BitVec.eq_of_getLsbD_eq
  intro i hi
  simp only [Instruction.jImmediate, BitVec.getLsbD_sshiftRight, BitVec.getLsbD_signExtend, BitVec.getLsbD_extractLsb',
    BitVec.msb_eq_getLsbD_last, BitVec.getLsbD_append, BitVec.getLsbD_or, BitVec.getLsbD_and,
    BitVec.getLsbD_shiftLeft, BitVec.getLsbD_ushiftRight]
  interval_cases i <;> simp

end layouts

/-! ### A decoded instruction is well-formed (R62 to R66, R116) -/

theorem extractLsb'_signExtend {n : Nat} (b : BitVec n) (h : n ≤ 32) : (b.signExtend 32).extractLsb' 0 n = b := by
  apply BitVec.eq_of_getLsbD_eq
  intro i hi
  rw [BitVec.getLsbD_extractLsb', Nat.zero_add, BitVec.getLsbD_signExtend]
  simp [hi, Nat.lt_of_lt_of_le hi h]

theorem signExtend_append_zero_even {n : Nat} (b : BitVec n) : ((b ++ 0#1).signExtend 32).getLsbD 0 = false := by
  rw [BitVec.getLsbD_signExtend, BitVec.getLsbD_append]
  simp

theorem fits12_signExtend (b : BitVec 12) : fits12 (b.signExtend 32) = true := by
  rw [fits12, extractLsb'_signExtend b (by decide), beq_self_eq_true]

theorem fits13Even_signExtend (b : BitVec 12) : fits13Even ((b ++ 0#1).signExtend 32) = true := by
  rw [fits13Even, extractLsb'_signExtend (b ++ 0#1) (by decide), beq_self_eq_true, signExtend_append_zero_even]
  rfl

theorem fits21Even_signExtend (b : BitVec 20) : fits21Even ((b ++ 0#1).signExtend 32) = true := by
  rw [fits21Even, extractLsb'_signExtend (b ++ 0#1) (by decide), beq_self_eq_true, signExtend_append_zero_even]
  rfl

theorem fitsUpper_append (b : BitVec 20) : fitsUpper (b ++ 0#12) = true := by
  rw [fitsUpper, BitVec.extractLsb'_append_eq_right, beq_self_eq_true]

section immediates
variable (w : Instruction)

theorem fits12_iImmediate : fits12 (Instruction.iImmediate w) = true := by
  rw [Instruction.iImmediate_eq_layout]
  exact fits12_signExtend _

theorem fits12_sImmediate : fits12 (Instruction.sImmediate w) = true := by
  rw [Instruction.sImmediate_eq_layout]
  exact fits12_signExtend _

theorem fits13Even_bImmediate : fits13Even (Instruction.bImmediate w) = true := by
  rw [Instruction.bImmediate_eq_layout]
  exact fits13Even_signExtend _

theorem fitsUpper_uImmediate : fitsUpper (Instruction.uImmediate w) = true := by
  rw [Instruction.uImmediate_eq_layout]
  exact fitsUpper_append _

theorem fits21Even_jImmediate : fits21Even (Instruction.jImmediate w) = true := by
  rw [Instruction.jImmediate_eq_layout]
  exact fits21Even_signExtend _

end immediates

theorem wf_decodeStandard {w : Instruction} (h : Instruction.standard w = true) : (decodeStandard w).wf = true := by
  rw [Instruction.standard_iff, Instruction.low_eq_opcode_low] at h
  unfold decodeStandard
  split
  next other => simp [Instr.wf, standardOpcodeOk, h, other]
  all_goals
    simp only [Instr.wf, fits12_iImmediate, fits12_sImmediate, fits13Even_bImmediate, fitsUpper_uImmediate,
      fits21Even_jImmediate]

theorem wf_decodeInstruction (w : Instruction) : (decodeInstruction w).wf = true := by
  by_cases h : Instruction.compressed w = true
  · obtain ⟨-, row⟩ | ⟨-, row⟩ | ⟨-, row⟩ := decodeInstruction_of_compressed h <;> rw [row] <;> rfl
  · have long := Instruction.standard_of_not_compressed h
    rw [decodeInstruction_of_standard long]
    exact wf_decodeStandard long

/-- The row of a standard word is none of the quadrants'. -/
theorem decodeStandard_ne_compressed (w : Instruction) (f4 : BitVec 4) (rs1 rs2 : Register) :
    decodeStandard w ≠ .compressedQ0 f4 rs1 rs2 ∧ decodeStandard w ≠ .compressedQ1 f4 rs1 rs2 ∧
      decodeStandard w ≠ .compressedQ2 f4 rs1 rs2 := by
  have long := isCompressed_decodeStandard w
  refine ⟨?_, ?_, ?_⟩ <;> intro row <;> rw [row] at long <;> exact Bool.false_ne_true long.symm

/-! ### The opcode table (R60, R72) -/

/-- A mask of low ones keeps a word's low slice. -/
theorem Instruction.mask_eq_slice (w : Instruction) {n : Nat} (fits : n ≤ 32) :
    w &&& BitVec.ofNat 32 (2 ^ n - 1) = (w.extractLsb' 0 n).setWidth 32 := by
  have ones : 2 ^ n - 1 < 2 ^ 32 :=
    Nat.lt_of_lt_of_le (Nat.sub_one_lt (Nat.two_pow_pos n).ne') (Nat.pow_le_pow_right (by decide) fits)
  apply BitVec.eq_of_toNat_eq
  rw [BitVec.toNat_and, BitVec.toNat_ofNat, Nat.mod_eq_of_lt ones, Nat.and_two_pow_sub_one_eq_mod,
    BitVec.toNat_setWidth_of_le fits, BitVec.extractLsb'_toNat, Nat.shiftRight_zero]

theorem Instruction.mask_low (w : Instruction) : w &&& 0x3#32 = (w.extractLsb' 0 2).setWidth 32 :=
  Instruction.mask_eq_slice w (n := 2) (by decide)

theorem Instruction.mask_opcode (w : Instruction) : w &&& 0x7f#32 = (w.extractLsb' 0 7).setWidth 32 :=
  Instruction.mask_eq_slice w (n := 7) (by decide)

/-- The row of a major opcode: all of w[6:0] is compared. -/
def MajorOpcode.row (m : MajorOpcode) : BitVec 32 × BitVec 32 := (0x7f, m.code.setWidth 32)

theorem MajorOpcode.matches_row_iff (w : Instruction) (m : MajorOpcode) :
    w &&& m.row.1 = m.row.2 ↔ w.extractLsb' 0 7 = m.code := by
  rw [show w &&& m.row.1 = _ from Instruction.mask_opcode w]
  refine ⟨fun h => BitVec.eq_of_toNat_eq ?_, congrArg (BitVec.setWidth 32)⟩
  have same : ((w.extractLsb' 0 7).setWidth 32).toNat = (m.code.setWidth 32).toNat := congrArg BitVec.toNat h
  rwa [BitVec.toNat_setWidth_of_le (by decide), BitVec.toNat_setWidth_of_le (by decide)] at same

/-- The rows that compare all of w[6:0] are those of R72. -/
theorem Instr.row_eq_of_mask : ∀ {i : Instr}, i.row.1 = 0x7f → ∃ m : MajorOpcode, i.row = m.row
  | .load .., _ => ⟨.load, rfl⟩
  | .miscMem .., _ => ⟨.miscMem, rfl⟩
  | .opImm .., _ => ⟨.opImm, rfl⟩
  | .auipc .., _ => ⟨.auipc, rfl⟩
  | .opImm32 .., _ => ⟨.opImm32, rfl⟩
  | .store .., _ => ⟨.store, rfl⟩
  | .op .., _ => ⟨.op, rfl⟩
  | .lui .., _ => ⟨.lui, rfl⟩
  | .op32 .., _ => ⟨.op32, rfl⟩
  | .branch .., _ => ⟨.branch, rfl⟩
  | .jalr .., _ => ⟨.jalr, rfl⟩
  | .jal .., _ => ⟨.jal, rfl⟩
  | .system .., _ => ⟨.system, rfl⟩

theorem row_decodeStandard_of_major {w : Instruction} {m : MajorOpcode} (h : w.extractLsb' 0 7 = m.code) :
    (decodeStandard w).row = m.row := by
  rw [decodeStandard, h, MajorOpcode.ofCode_code]
  cases m <;> rfl

theorem row_decodeStandard_of_other {w : Instruction} (h : MajorOpcode.ofCode (w.extractLsb' 0 7) = none) :
    (decodeStandard w).row = (0x3, 0x3) := by
  rw [decodeStandard, h]
  rfl

/-- A standard word matches the row it decodes to: all of its opcode or, outside R72, its low two bits. -/
theorem decodeStandard_matches_row {w : Instruction} (long : Instruction.standard w = true) :
    w &&& (decodeStandard w).row.1 = (decodeStandard w).row.2 := by
  cases selected : MajorOpcode.ofCode (w.extractLsb' 0 7) with
  | none =>
    rw [row_decodeStandard_of_other selected]
    exact (Instruction.mask_low w).trans (by rw [(Instruction.standard_iff w).1 long]; rfl)
  | some m =>
    have major := (MajorOpcode.ofCode_eq_some _ m).1 selected
    rw [row_decodeStandard_of_major major]
    exact (m.matches_row_iff w).2 major

theorem decodeInstruction_matches_row (w : Instruction) :
    w &&& (decodeInstruction w).row.1 = (decodeInstruction w).row.2 := by
  by_cases h : Instruction.compressed w = true
  · obtain ⟨low, row⟩ | ⟨low, row⟩ | ⟨low, row⟩ := decodeInstruction_of_compressed h <;> rw [row] <;>
      exact (Instruction.mask_low w).trans (by rw [low]; rfl)
  · have long := Instruction.standard_of_not_compressed h
    rw [decodeInstruction_of_standard long]
    exact decodeStandard_matches_row long

/-- A word whose opcode is a row's of R72 is a standard word, and decodes to that row. -/
theorem row_decodeInstruction_of_major {w : Instruction} {m : MajorOpcode} (h : w.extractLsb' 0 7 = m.code) :
    (decodeInstruction w).row = m.row := by
  have long : Instruction.standard w = true := by
    rw [Instruction.standard_iff, Instruction.low_eq_opcode_low, h, MajorOpcode.code_low]
  rw [decodeInstruction_of_standard long, row_decodeStandard_of_major h]

/-! ### Bytes (R45, D6) -/

/-- The low two bits of a parcel stand in its first byte. -/
theorem parcelOfBytes_low (b0 b1 : Byte) : (parcelOfBytes b0 b1).extractLsb' 0 2 = 0b11#2 ↔ b0.toNat % 4 = 3 := by
  have byte : (parcelOfBytes b0 b1).extractLsb' 0 8 = b0 := BitVec.extractLsb'_append_eq_right
  rw [← BitVec.extractLsb'_extractLsb'_of_le (len' := 8) (by decide), byte, ← BitVec.toNat_inj,
    BitVec.extractLsb'_toNat, Nat.shiftRight_zero]
  rfl

/-- After a first parcel of a standard instruction two more bytes are needed. -/
theorem decode_of_standard_truncated {b0 b1 : Byte} (low : (parcelOfBytes b0 b1).extractLsb' 0 2 = 0b11#2) :
    ∀ {rest : List Byte}, rest.length < 2 → decode (b0 :: b1 :: rest) = .error .truncated
  | [], _ | [_], _ => by simp only [decode, Instruction.fromParcels_of_standard 0 low]

/-- A byte string is rejected exactly when it ends before its first parcel or, after a first parcel of a standard
instruction, before its second. -/
theorem decode_eq_truncated_iff : ∀ bs : List Byte, decode bs = .error .truncated ↔
    bs.length < 2 ∨ bs.length < 4 ∧ ∃ b, bs.head? = some b ∧ b.toNat % 4 = 3
  | [] | [_] => by simp [decode]
  | b0 :: b1 :: rest => by
    by_cases low : b0.toNat % 4 = 3
    · have long := (parcelOfBytes_low b0 b1).2 low
      match rest with
      | [] | [_] => simp [decode_of_standard_truncated long, low]
      | b2 :: b3 :: rest => simp [decode_of_standard rest (Instruction.fromParcels_of_standard _ long)]
    · have short := mt (parcelOfBytes_low b0 b1).1 low
      simp [decode_of_compressed rest (Instruction.fromParcels_of_compressed 0 short), low]

/-! ### The values of a word's accessors, from its operands (R61 to R67) -/

section standard
variable (o : BitVec 7) (rd : Register) (f3 : BitVec 3) (rs1 rs2 : Register) (f7 : BitVec 7)

@[simp] theorem Instruction.opcode_encodeR :
    Instruction.opcode (encodeR o rd f3 rs1 rs2 f7) = o.setWidth 8 := by
  rw [Instruction.opcode, encodeR_opcode]

@[simp] theorem Instruction.funct3_encodeR :
    Instruction.funct3 (encodeR o rd f3 rs1 rs2 f7) = f3.setWidth 8 := by
  rw [Instruction.funct3, encodeR_funct3]

@[simp] theorem Instruction.funct7_encodeR :
    Instruction.funct7 (encodeR o rd f3 rs1 rs2 f7) = f7.setWidth 8 := by
  rw [Instruction.funct7, encodeR_funct7]

/-- The upper twelve bits of an R word are funct7 and rs2. -/
theorem encodeR_upper12 : (encodeR o rd f3 rs1 rs2 f7).extractLsb' 20 12 = f7 ++ rs2.toField := by
  have parts : (encodeR o rd f3 rs1 rs2 f7).extractLsb' 25 7 ++ (encodeR o rd f3 rs1 rs2 f7).extractLsb' 20 5 =
      (encodeR o rd f3 rs1 rs2 f7).extractLsb' 20 12 := BitVec.extractLsb'_append_extractLsb'_eq_extractLsb' rfl
  rw [← parts, encodeR_funct7, encodeR_rs2]

theorem iImmediate_encodeR :
    Instruction.iImmediate (encodeR o rd f3 rs1 rs2 f7) = (f7 ++ rs2.toField).signExtend 32 := by
  rw [Instruction.iImmediate_eq_layout, encodeR_upper12]

theorem sImmediate_encodeR :
    Instruction.sImmediate (encodeR o rd f3 rs1 rs2 f7) = (f7 ++ rd.toField).signExtend 32 := by
  rw [Instruction.sImmediate_eq_layout, encodeR_funct7, encodeR_rd]

theorem bImmediate_encodeR : Instruction.bImmediate (encodeR o rd f3 rs1 rs2 f7) =
    (f7.extractLsb' 6 1 ++ rd.toField.extractLsb' 0 1 ++ f7.extractLsb' 0 6
      ++ rd.toField.extractLsb' 1 4 ++ 0#1).signExtend 32 := by
  rw [Instruction.bImmediate_eq_layout]
  apply BitVec.eq_of_getLsbD_eq
  intro i hi
  simp only [encodeR, BitVec.getLsbD_signExtend, BitVec.msb_eq_getLsbD_last, BitVec.getLsbD_append,
    BitVec.getLsbD_extractLsb']
  interval_cases i <;> simp

theorem uImmediate_encodeR :
    Instruction.uImmediate (encodeR o rd f3 rs1 rs2 f7) = f7 ++ rs2.toField ++ rs1.toField ++ f3 ++ 0#12 := by
  rw [Instruction.uImmediate_eq_layout]
  apply BitVec.eq_of_getLsbD_eq
  intro i hi
  simp only [encodeR, BitVec.getLsbD_append, BitVec.getLsbD_extractLsb']
  interval_cases i <;> simp

theorem jImmediate_encodeR : Instruction.jImmediate (encodeR o rd f3 rs1 rs2 f7) =
    (f7.extractLsb' 6 1 ++ rs1.toField ++ f3 ++ rs2.toField.extractLsb' 0 1
      ++ f7.extractLsb' 0 6 ++ rs2.toField.extractLsb' 1 4 ++ 0#1).signExtend 32 := by
  rw [Instruction.jImmediate_eq_layout]
  apply BitVec.eq_of_getLsbD_eq
  intro i hi
  simp only [encodeR, BitVec.getLsbD_signExtend, BitVec.msb_eq_getLsbD_last, BitVec.getLsbD_append,
    BitVec.getLsbD_extractLsb']
  interval_cases i <;> simp

end standard

section compressed
variable (w : Instruction)

/-- A three-bit slice is the low part of the five-bit slice at its place. -/
theorem Register.abbreviated_slice (p : Nat) : Register.abbreviated (w.extractLsb' p 3) =
    Register.abbreviated (BitVec.ofNat 3 (Register.ofField (w.extractLsb' p 5)).val) := by
  apply congrArg Register.abbreviated
  apply BitVec.eq_of_toNat_eq
  rw [BitVec.toNat_ofNat, Register.val_ofField, Instruction.toNat_slice, Instruction.toNat_slice,
    Nat.mod_mod_of_dvd _ (by decide)]

theorem Instruction.crs1_eq : Instruction.crs1 w =
    Register.abbreviated (BitVec.ofNat 3 (Instruction.compressedRs1 w).val) := Register.abbreviated_slice w 7

theorem Instruction.crs2_eq : Instruction.crs2 w =
    Register.abbreviated (BitVec.ofNat 3 (Instruction.compressedRs2 w).val) := Register.abbreviated_slice w 2

/-- `funct2` is the upper part of w[6:2]. -/
theorem Instruction.compressedFunct2_eq :
    Instruction.compressedFunct2 w = BitVec.ofNat 8 ((Instruction.compressedRs2 w).val / 8) := by
  apply BitVec.eq_of_toNat_eq
  rw [Instruction.toNat_compressedFunct2, BitVec.toNat_ofNat, Instruction.compressedRs2, Register.val_ofField,
    Instruction.toNat_slice]
  omega

/-- `funct3` is the upper part of w[15:12]. -/
theorem Instruction.compressedFunct3_eq :
    Instruction.compressedFunct3 w = BitVec.ofNat 8 ((w.extractLsb' 12 4).toNat / 2) := by
  apply BitVec.eq_of_toNat_eq
  rw [Instruction.toNat_compressedFunct3, BitVec.toNat_ofNat, Instruction.toNat_slice]
  omega

/-- `funct6` is w[15:12] and the upper part of w[11:7]. -/
theorem Instruction.compressedFunct6_eq : Instruction.compressedFunct6 w =
    BitVec.ofNat 8 (4 * (w.extractLsb' 12 4).toNat + (Instruction.compressedRs1 w).val / 8) := by
  apply BitVec.eq_of_toNat_eq
  rw [Instruction.toNat_compressedFunct6, BitVec.toNat_ofNat, Instruction.compressedRs1, Register.val_ofField,
    Instruction.toNat_slice, Instruction.toNat_slice]
  omega

end compressed

end Sys2Proof

namespace Sys2Proof.Machine

/-! ### What each row records (R72, R79) -/

section applied
variable (o : BitVec 7) (m : MajorOpcode) (rd : Register) (f3 : BitVec 3) (rs1 rs2 : Register) (f7 : BitVec 7)

theorem applied_encodeR : applyAccessors (Format.accessors .r) (encodeR o rd f3 rs1 rs2 f7) =
    [(.opcode, .u8 (o.setWidth 8)), (.rd, .register rd), (.funct3, .u8 (f3.setWidth 8)), (.rs1, .register rs1),
      (.rs2, .register rs2), (.funct7, .u8 (f7.setWidth 8))] := by
  simp [applyAccessors, Format.accessors, Accessor.value]

theorem applied_immediates_encodeR :
    applyAccessors [.iImmediate, .sImmediate, .bImmediate, .uImmediate, .jImmediate] (encodeR o rd f3 rs1 rs2 f7) =
      immediateFields rd f3 rs1 rs2 f7 := by
  simp only [applyAccessors, List.map, Accessor.value, iImmediate_encodeR, sImmediate_encodeR, bImmediate_encodeR,
    uImmediate_encodeR, jImmediate_encodeR, immediateFields]

theorem applied_encodeI {imm : BitVec 32} (fits : fits12 imm = true) :
    applyAccessors (Format.accessors .i) (encodeI m.code rd f3 rs1 imm) = iFields m rd f3 rs1 imm := by
  simp only [applyAccessors, Format.accessors, List.map, Accessor.value, iImmediate_encodeI _ _ _ _ fits]
  simp [encodeI_eq_encodeR, iFields]

/-- The shift fields of an I word hold its immediate. -/
theorem applied_shift_encodeI (imm : BitVec 32) : applyAccessors [.funct7, .rs2] (encodeI o rd f3 rs1 imm) =
    [(.funct7, .u8 (BitVec.ofNat 8 (imm.toNat / 2 ^ 5 % 2 ^ 7))),
      (.rs2, .register (Register.ofField (imm.extractLsb' 0 5)))] := by
  have upper : (imm.extractLsb' 5 7).setWidth 8 = BitVec.ofNat 8 (imm.toNat / 2 ^ 5 % 2 ^ 7) := by
    rw [← Instruction.toNat_u8_slice imm 5 (by decide), BitVec.ofNat_toNat, BitVec.setWidth_eq]
  rw [← upper]
  simp [applyAccessors, Accessor.value, encodeI_eq_encodeR]

theorem applied_encodeS {imm : BitVec 32} (fits : fits12 imm = true) :
    applyAccessors (Format.accessors .s) (encodeS o f3 rs1 rs2 imm) =
      [(.opcode, .u8 (o.setWidth 8)), (.funct3, .u8 (f3.setWidth 8)), (.rs1, .register rs1), (.rs2, .register rs2),
        (.sImmediate, .u32 imm)] := by
  simp only [applyAccessors, Format.accessors, List.map, Accessor.value, sImmediate_encodeS _ _ _ _ fits]
  simp [encodeS_eq_encodeR]

theorem applied_encodeB {imm : BitVec 32} (fits : fits13Even imm = true) :
    applyAccessors (Format.accessors .b) (encodeB o f3 rs1 rs2 imm) =
      [(.opcode, .u8 (o.setWidth 8)), (.funct3, .u8 (f3.setWidth 8)), (.rs1, .register rs1), (.rs2, .register rs2),
        (.bImmediate, .u32 imm)] := by
  simp only [applyAccessors, Format.accessors, List.map, Accessor.value, bImmediate_encodeB _ _ _ _ fits]
  simp [encodeB_eq_encodeR]

theorem applied_encodeU {imm : BitVec 32} (fits : fitsUpper imm = true) :
    applyAccessors (Format.accessors .u) (encodeU o rd imm) =
      [(.opcode, .u8 (o.setWidth 8)), (.rd, .register rd), (.uImmediate, .u32 imm)] := by
  simp only [applyAccessors, Format.accessors, List.map, Accessor.value, uImmediate_encodeU _ _ fits]
  simp [encodeU_eq_encodeR]

theorem applied_encodeJ {imm : BitVec 32} (fits : fits21Even imm = true) :
    applyAccessors (Format.accessors .j) (encodeJ o rd imm) =
      [(.opcode, .u8 (o.setWidth 8)), (.rd, .register rd), (.jImmediate, .u32 imm)] := by
  simp only [applyAccessors, Format.accessors, List.map, Accessor.value, jImmediate_encodeJ _ _ fits]
  simp [encodeJ_eq_encodeR]

end applied

theorem applied_compressed (w : Instruction) : applyAccessors compressedAccessors w =
    compressedFields (w.extractLsb' 0 2) (w.extractLsb' 12 4) w.compressedRs1 w.compressedRs2 := by
  simp only [applyAccessors, compressedAccessors, List.map, Accessor.value, compressedFields, Instruction.crs1_eq,
    Instruction.crs2_eq, Instruction.compressedFunct2_eq, Instruction.compressedFunct3_eq,
    Instruction.compressedFunct6_eq]
  rfl

theorem applied_encodeC (op : BitVec 2) (f4 : BitVec 4) (rs1 rs2 : Register) :
    applyAccessors compressedAccessors (encodeC op f4 rs1 rs2) = compressedFields op f4 rs1 rs2 := by
  rw [applied_compressed, encodeC_op, encodeC_funct4, Instruction.compressedRs1_encodeC,
    Instruction.compressedRs2_encodeC]

/-- A row that retires a word records the values of its accessors and its decoder's immediate, widened. -/
theorem next_retire {s : State} {w : Instruction} {flag : Bool} {as : List Accessor}
    {applied : List (Accessor × Value)} {decoded imm : Option (BitVec 32)} (fields : applyAccessors as w = applied)
    (immediate : decoded = imm) :
    (.next (s.retire w flag as decoded) : Host.Outcome State Fault Refusal) = .next (s.recorded (advanceBytes flag)
      { addr := s.pc, inst := w, flag := flag, applied := applied, immediate := imm.map (widenImmediate s.xlen) }) := by
  subst fields immediate
  rfl

/-! ### The obligations -/

/-- Settles O28: `decodeInstruction_encode`, by layout. -/
theorem decodeOfEncodeIsIdentity : Obligations.DecodeOfEncodeIsIdentity := fun _ => decodeInstruction_encode

/-- Settles O29: each layout filled with a word's own fields is the word, and the compressed one its low half. -/
theorem encodeOfDecodeIsTheWord : Obligations.EncodeOfDecodeIsTheWord :=
  fun _ => ⟨encode_decodeInstruction_of_standard, encode_decodeInstruction_of_compressed⟩

/-- Settles O1: both tests and the class compare the low two bits, which are the word's number mod 4. -/
theorem lengthClassesAreExclusiveAndExhaustive : Obligations.LengthClassesAreExclusiveAndExhaustive := by
  intro w
  refine ⟨?standard, ?compressed, Instruction.standard_eq_not_compressed w, ?classes⟩
  case standard => exact (Instruction.standard_iff w).trans (Instruction.low_eq_iff w _)
  case compressed => exact (Instruction.compressed_iff w).trans (Instruction.low_eq_iff w _).not
  case classes =>
    have decides := fun c => (Instruction.lengthClass_eq_iff w c).trans (Instruction.low_eq_iff w c.low)
    exact ⟨decides .standard32, decides .compressedQ0, decides .compressedQ1, decides .compressedQ2⟩

/-- Settles O3: every compressed accessor is a function of slices that end at bit 15 or below. -/
theorem compressedAccessorsReadOnlyTheLowHalf : Obligations.CompressedAccessorsReadOnlyTheLowHalf := by
  refine ⟨fun w w' same a ha => ?_, fun w => rfl⟩
  have slice := fun p n => Instruction.slice_congr_lowHalf same (p := p) (n := n)
  fin_cases ha <;>
    simp (disch := decide) only [Accessor.value, Instruction.op, Instruction.compressedFunct2,
      Instruction.compressedFunct3, Instruction.compressedFunct4, Instruction.compressedFunct6,
      Instruction.compressedRs1, Instruction.compressedRs2, Instruction.crs1, Instruction.crs2, cfunctPos, slice]

/-- Settles O4: each field is a slice, returned as a `u8` or as the Register of that number. -/
theorem standardFieldsAreTheirBits : Obligations.StandardFieldsAreTheirBits := by
  intro w
  refine ⟨?opcode, ?rd, ?funct3, ?rs1, ?rs2, ?funct7⟩
  case opcode => exact (Instruction.toNat_u8_slice w 0 (by decide)).trans (by rw [pow_zero, Nat.div_one])
  case rd => exact Instruction.toNat_slice w 7 5
  case funct3 => exact Instruction.toNat_u8_slice w 12 (by decide)
  case rs1 => exact Instruction.toNat_slice w 15 5
  case rs2 => exact Instruction.toNat_slice w 20 5
  case funct7 =>
    rw [Instruction.funct7, Instruction.toNat_u8_slice w 25 (by decide)]
    omega

/-- Settles O5: each field is a slice, and an abbreviated one is a slice of three bits plus 8. -/
theorem compressedRegistersAreTheirBits : Obligations.CompressedRegistersAreTheirBits := by
  intro w
  have op : (Instruction.op w).toNat = w.toNat / 2 ^ 0 % 2 ^ 2 := Instruction.toNat_u8_slice w 0 (by decide)
  have crs1 : (Instruction.crs1 w).val = w.toNat / 2 ^ 7 % 2 ^ 3 + 8 :=
    congrArg (· + 8) (Instruction.toNat_slice w 7 3)
  have crs2 : (Instruction.crs2 w).val = w.toNat / 2 ^ 2 % 2 ^ 3 + 8 :=
    congrArg (· + 8) (Instruction.toNat_slice w 2 3)
  rw [pow_zero, Nat.div_one] at op
  refine ⟨op, Instruction.toNat_slice w 7 5, Instruction.toNat_slice w 2 5, crs1, crs2, ?_⟩
  omega

/-- Settles O6: each field is a slice at its position of D3; the relations of R122 are arithmetic of the slices. -/
theorem compressedFunctsAreTheirBits : Obligations.CompressedFunctsAreTheirBits := by
  intro w
  have funct3 := Instruction.toNat_compressedFunct3 w
  have funct4 := Instruction.toNat_compressedFunct4 w
  have funct6 := Instruction.toNat_compressedFunct6 w
  refine ⟨Instruction.toNat_compressedFunct2 w, funct3, funct4, funct6, ?shift1, ?shift3⟩
  case shift1 =>
    apply BitVec.eq_of_toNat_eq
    rw [BitVec.toNat_ushiftRight, Nat.shiftRight_eq_div_pow, funct3, funct4]
    omega
  case shift3 =>
    apply BitVec.eq_of_toNat_eq
    rw [BitVec.toNat_ushiftRight, Nat.shiftRight_eq_div_pow, funct3, funct6]
    omega

/-- Settles O7: the shift brings w[31:20] down and copies the sign above it. -/
theorem iImmediateIsItsSignExtendedField : Obligations.IImmediateIsItsSignExtendedField :=
  Instruction.iImmediate_eq_layout

/-- Settles O8: the shift brings the sign and funct7 in place, the mask puts rd's bits below. -/
theorem sImmediateIsItsSignExtendedFields : Obligations.SImmediateIsItsSignExtendedFields :=
  Instruction.sImmediate_eq_layout

/-- Settles O9: each shifted and masked term puts its bits of the layout in place. -/
theorem bImmediateIsItsSignExtendedFields : Obligations.BImmediateIsItsSignExtendedFields :=
  Instruction.bImmediate_eq_layout

/-- Settles O10: the layout, and the number it makes. -/
theorem uImmediateIsItsUpperField : Obligations.UImmediateIsItsUpperField := by
  intro w
  have layout := Instruction.uImmediate_eq_layout w
  refine ⟨layout, ?_⟩
  have bound := w.isLt
  rw [layout, BitVec.toNat_append, BitVec.toNat_ofNat, Nat.zero_mod, Nat.or_zero, Nat.shiftLeft_eq,
    Instruction.toNat_slice]
  omega

/-- Settles O11: each shifted and masked term puts its bits of the layout in place. -/
theorem jImmediateIsItsSignExtendedFields : Obligations.JImmediateIsItsSignExtendedFields :=
  Instruction.jImmediate_eq_layout

/-- Settles O30: the decoder branches on the length class, and a standard word's row is none of the quadrants'. -/
theorem decodedInstructionsAreWellFormed : Obligations.DecodedInstructionsAreWellFormed := by
  intro w
  refine ⟨wf_decodeInstruction w, isCompressed_decodeInstruction w, ?_⟩
  cases decides : Instruction.lengthClass w with
  | standard32 => simp [decodeInstruction, decides, decodeStandard_ne_compressed, isCompressed_decodeStandard]
  | compressedQ0 | compressedQ1 | compressedQ2 => simp [decodeInstruction, decides, Instr.isCompressed]

/-- Settles O31: `decodeInstruction_matches_row`, and the rows with mask 0x7f are the major opcodes'. -/
theorem decodeFollowsTheOpcodeTable : Obligations.DecodeFollowsTheOpcodeTable := by
  intro w
  refine ⟨decodeInstruction_matches_row w, fun i mask hit => ?_⟩
  obtain ⟨m, row⟩ := Instr.row_eq_of_mask mask
  rw [row, MajorOpcode.matches_row_iff] at hit
  rw [row, row_decodeInstruction_of_major hit]

/-- Settles O33: by how many bytes there are and, from two to three bytes on, by the low two bits of the first. -/
theorem decodeRejectsOnlyTruncatedBytes : Obligations.DecodeRejectsOnlyTruncatedBytes := decode_eq_truncated_iff

/-- Settles O34: the word is an R word, of which every accessor's value is an operand or put together from some. -/
theorem standard32RecordsEveryStandardField : Obligations.Standard32RecordsEveryStandardField := by
  intro opcode rd f3 rs1 rs2 f7 s
  refine next_retire (as := Format.accessors .r ++ _) ?_ rfl
  rw [applyAccessors, List.map_append]
  exact congrArg₂ (· ++ ·) (applied_encodeR ..) (applied_immediates_encodeR ..)

/-- Settles O35: the three classes retire one layout with their own `op`. -/
theorem compressedClassesRecordEveryCompressedField : Obligations.CompressedClassesRecordEveryCompressedField := by
  intro f4 rs1 rs2 s
  have fields := fun op => applied_encodeC op f4 rs1 rs2
  exact ⟨next_retire (fields 0b00) rfl, next_retire (fields 0b01) rfl, next_retire (fields 0b10) rfl⟩

/-- Settles O36: the five rows retire one layout with their own opcode. -/
theorem iFormatRowsRecordTheirFields : Obligations.IFormatRowsRecordTheirFields := by
  intro rd f3 rs1 imm s fits
  have fields := fun m => applied_encodeI m rd f3 rs1 fits
  have immediate := fun o => congrArg some (iImmediate_encodeI o rd f3 rs1 fits)
  exact ⟨next_retire (fields .load) (immediate _), next_retire (fields .miscMem) (immediate _),
    next_retire (fields .opImm32) (immediate _), next_retire (fields .jalr) (immediate _),
    next_retire (fields .system) (immediate _)⟩

/-- Settles O37: the I fields, and the two shift fields that lie inside the immediate. -/
theorem opImmRecordsItsFieldsAndShiftFields : Obligations.OpImmRecordsItsFieldsAndShiftFields := by
  intro rd f3 rs1 imm s fits
  refine next_retire ?_ (congrArg some (iImmediate_encodeI _ rd f3 rs1 fits))
  rw [applyAccessors, opImmAccessors, List.map_append]
  exact congrArg₂ (· ++ ·) (applied_encodeI .opImm rd f3 rs1 fits) (applied_shift_encodeI ..)

/-- Settles O38: the two rows retire the R layout, whose fields are the operands. -/
theorem rFormatRowsRecordTheirFields : Obligations.RFormatRowsRecordTheirFields := by
  intro rd f3 rs1 rs2 f7 s
  exact ⟨next_retire (applied_encodeR ..) rfl, next_retire (applied_encodeR ..) rfl⟩

/-- Settles O39: each row retires its layout, whose decoder gives back every encodable immediate. -/
theorem storeAndBranchRecordTheirFields : Obligations.StoreAndBranchRecordTheirFields := by
  intro f3 rs1 rs2 imm s
  constructor
  · intro fits
    exact next_retire (applied_encodeS _ _ _ _ fits) (congrArg some (sImmediate_encodeS _ _ _ _ fits))
  · intro fits
    exact next_retire (applied_encodeB _ _ _ _ fits) (congrArg some (bImmediate_encodeB _ _ _ _ fits))

/-- Settles O40: each row retires its layout, whose decoder gives back every encodable immediate. -/
theorem upperAndJumpRowsRecordTheirFields : Obligations.UpperAndJumpRowsRecordTheirFields := by
  intro rd imm s
  constructor
  · intro fits
    have fields := fun o => applied_encodeU o rd fits
    have immediate := fun o => congrArg some (uImmediate_encodeU o rd fits)
    exact ⟨next_retire (fields _) (immediate _), next_retire (fields _) (immediate _)⟩
  · intro fits
    exact next_retire (applied_encodeJ _ _ fits) (congrArg some (jImmediate_encodeJ _ _ fits))

/-- Settles O27: the decoder run on the seven words. -/
theorem specWordsDecode : Obligations.SpecWordsDecode := by
  unfold Obligations.SpecWordsDecode
  decide

end Sys2Proof.Machine
end

