-- ==== Sys2Proof/Proofs/DecodeEntry.lean ====
section
/-! PROOFS. The obligations of spec/40_decode_entry.md: what two parcels build, and what a step fetches, decodes and
records. A fetch decodes what the byte decoder reads from the bytes at the fetch position; both statements about
bytes placed there follow from that. -/

namespace Sys2Proof

/-! ### The Instruction of two parcels, as a number (R45, R91) -/

theorem Parcel.low_iff (p : Parcel) : p.extractLsb' 0 2 = 0b11#2 ↔ p.toNat % 4 = 3 := by
  rw [← BitVec.toNat_inj, BitVec.extractLsb'_toNat, Nat.shiftRight_zero]
  rfl

theorem Parcel.toNat_append (p1 p0 : Parcel) : (p1 ++ p0).toNat = p1.toNat * 2 ^ 16 + p0.toNat := by
  rw [BitVec.toNat_append, ← Nat.shiftLeft_add_eq_or_of_lt p0.isLt, Nat.shiftLeft_eq]

/-! ### The byte decoder (R60, R91) -/

/-- Four bytes are enough for an instruction of either length class. -/
theorem decode_of_four_bytes {bs : List Byte} (enough : 4 ≤ bs.length) : ∃ i rest, decode bs = .ok (i, rest) := by
  cases decoded : decode bs with
  | ok read => exact ⟨read.1, read.2, rfl⟩
  | error e =>
    obtain short | ⟨short, -⟩ := (decode_eq_truncated_iff bs).1 decoded <;> omega

end Sys2Proof

namespace Sys2Proof.Machine

/-! ### The fetch of bytes that are listed (R45, R46) -/

section fetch
variable (p : Params) {s : State}

/-- The first parcel of a fetch, from the two bytes at the fetch position. -/
theorem State.fetch_first {b0 b1 : Byte} {bs : List Byte}
    (fits : s.pc.toNat + (b0 :: b1 :: bs).length ≤ 2 ^ s.xlen.bits)
    (listed : Bus.Holds s.hart.bus s.pc.toNat (b0 :: b1 :: bs)) :
    (Bus.readU16 p s.hart.bus s.pc).1 = parcelOfBytes b0 b1 := by
  obtain ⟨h0, h1, -⟩ := listed
  simp only [List.length_cons] at fits
  exact Bus.readU16_of_holds p (by omega) ⟨h0, h1, trivial⟩

/-- The second parcel of a fetch, from the two bytes after those: the first read changes no listed byte. -/
theorem State.fetch_second {b0 b1 b2 b3 : Byte} {bs : List Byte}
    (fits : s.pc.toNat + (b0 :: b1 :: b2 :: b3 :: bs).length ≤ 2 ^ s.xlen.bits)
    (listed : Bus.Holds s.hart.bus s.pc.toNat (b0 :: b1 :: b2 :: b3 :: bs)) :
    (Bus.readU16 p (Bus.readU16 p s.hart.bus s.pc).2 (nextAddress p s.pc 2)).1 = parcelOfBytes b2 b3 := by
  obtain ⟨-, -, h2, h3, -⟩ := listed
  simp only [List.length_cons] at fits
  have next : (nextAddress p s.pc 2).toNat = s.pc.toNat + 1 + 1 := nextAddress_toNat p s.pc (by omega)
  exact Bus.readU16_of_holds p (by omega) (next ▸ ⟨h2, h3, trivial⟩)

/-- A fetch decodes what the byte decoder reads from the bytes listed at the fetch position. -/
theorem decodeInstruction_fetch : ∀ {bs rest : List Byte} {i : Instr}, decode bs = .ok (i, rest) →
    s.pc.toNat + bs.length ≤ 2 ^ s.xlen.bits → Bus.Holds s.hart.bus s.pc.toNat bs →
    decodeInstruction (s.fetch p).1.1 = i
  | [], _, _, decoded, _, _ | [_], _, _, decoded, _, _ => by simp [decode] at decoded
  | b0 :: b1 :: bs, _, _, decoded, fits, listed => by
    rw [State.fetch, State.fetch_first p fits listed]
    by_cases low : (parcelOfBytes b0 b1).extractLsb' 0 2 = 0b11#2
    · match bs with
      | [] | [_] => simp [decode_of_standard_truncated low] at decoded
      | b2 :: b3 :: bs =>
        have built := Instruction.fromParcels_of_standard (parcelOfBytes b2 b3) low
        rw [decode_of_standard bs built] at decoded
        rw [State.fetch_second p fits listed, built]
        exact congrArg Prod.fst (Except.ok.inj decoded)
    · have built := fun p1 => Instruction.fromParcels_of_compressed p1 low
      rw [decode_of_compressed bs (built 0)] at decoded
      rw [built]
      exact congrArg Prod.fst (Except.ok.inj decoded)

end fetch

/-- A step over listed bytes runs the instruction that the byte decoder reads from them, in the state the fetch
leaves. -/
theorem step_of_holds {s : State} {bs rest : List Byte} {i : Instr} (decoded : decode bs = .ok (i, rest))
    (fits : s.pc.toNat + bs.length ≤ 2 ^ s.xlen.bits) (listed : Bus.Holds s.hart.bus s.pc.toNat bs) :
    step s = exec i (s.fetch Config.params).2 := by
  rw [step, decodeInstruction_fetch Config.params decoded fits listed]

/-! ### The placed word (log entry 5) -/

/-- An image that fits below the top of the address space stands listed at the position it was loaded at. -/
theorem State.holds_loadImage (s : State) {bs : List Byte} (fits : s.pc.toNat + bs.length ≤ 2 ^ s.xlen.bits) :
    Bus.Holds (s.loadImage s.pc.toNat bs).hart.bus s.pc.toNat bs :=
  Bus.holds_load bs _ _ fits

/-- Where four bytes do not fit, the word is placed at position 0, where they do. -/
theorem State.withFetchWord_eq_loadImage (s : State) (nbits w : Nat) :
    ∃ s' : State, s'.pc.toNat + 4 ≤ 2 ^ s'.xlen.bits ∧
      s.withFetchWord nbits w = s'.loadImage s'.pc.toNat (bytesOfWord (tableWord nbits w)) := by
  by_cases fits : s.pc.toNat + 4 ≤ 2 ^ s.xlen.bits
  · exact ⟨s, fits, by rw [State.withFetchWord, if_pos fits]⟩
  · have room : (0 : Addr s.xlen).toNat + 4 ≤ 2 ^ s.xlen.bits := by cases s.xlen <;> decide
    exact ⟨{ s with pc := 0 }, room, by rw [State.withFetchWord, if_neg fits]⟩

/-! ### The run -/

theorem run_succ_of_next {M : Host.Core} {s t : M.State} (k : Nat) (h : M.step s = .next t) :
    M.run (k + 1) s = M.run k t := by
  rw [Host.Core.run, h]

/-! ### The obligations -/

/-- Settles O2: `fromParcels_of_compressed` and `fromParcels_of_standard`, as numbers. -/
theorem fromParcelsBuildsByTheFirstParcel : Obligations.FromParcelsBuildsByTheFirstParcel := by
  intro p0 p1
  constructor
  · intro short
    rw [Instruction.fromParcels_of_compressed p1 (mt (Parcel.low_iff p0).1 short)]
    exact ⟨BitVec.toNat_setWidth_of_le (by decide), rfl⟩
  · intro long
    rw [Instruction.fromParcels_of_standard p1 ((Parcel.low_iff p0).2 long)]
    exact ⟨Parcel.toNat_append p1 p0, rfl⟩

/-- Settles O45: the four placed bytes are listed at the fetch position and long enough for the byte decoder. -/
theorem stepRunsThePlacedWord : Obligations.StepRunsThePlacedWord := by
  intro s nbits w
  obtain ⟨s', fits, placed⟩ := State.withFetchWord_eq_loadImage s nbits w
  obtain ⟨i, rest, decoded⟩ := decode_of_four_bytes (bs := bytesOfWord (tableWord nbits w)) le_rfl
  refine ⟨i, by rw [decodeTableWord, decoded], ?_⟩
  rw [placed]
  exact step_of_holds decoded fits (State.holds_loadImage s' fits)

/-- Settles O46: `step_eq_recorded` with the two reads of the fetch written out. -/
theorem stepRecordsWhatTheParcelsBuild : Obligations.StepRecordsWhatTheParcelsBuild := by
  intro s
  obtain ⟨e, steps, addr, built, -⟩ := step_eq_recorded s
  exact ⟨(s.fetch Config.params).2.recorded (advanceBytes e.flag) e, e, steps, rfl, congrArg BitVec.toNat addr, built,
    rfl⟩

/-- Settles O53: by induction on the number of steps, each of which has a next state by `step_eq_recorded`. -/
theorem machineNeverStops : Obligations.MachineNeverStops := by
  intro s k
  induction k generalizing s with
  | zero => exact ⟨s, rfl⟩
  | succ k ih =>
    obtain ⟨e, steps, -⟩ := step_eq_recorded s
    obtain ⟨t, runs⟩ := ih ((s.fetch Config.params).2.recorded (advanceBytes e.flag) e)
    exact ⟨t, (run_succ_of_next (M := Sys2Proof.core) k steps).trans runs⟩

/-- Settles O44: the byte decoder reads a well-formed instruction from its bytes, and a step runs what it reads. -/
theorem stepRunsTheDecodedInstruction : Obligations.StepRunsTheDecodedInstruction := by
  intro s i wf fits listed
  have decoded := decodeOfEncodedBytes i [] wf
  rw [List.append_nil] at decoded
  exact step_of_holds decoded fits listed

end Sys2Proof.Machine
end

