-- ==== Sys2Proof/Proofs/Immediates.lean ====
section
/-! PROOFS. The obligations of spec/42_immediates.md: the sign law, the ranges, the bits each immediate ignores, and
the consumer's widening. Each decoder is its layout (`Instruction.iImmediate_eq_layout` and its four companions), so
a statement about a decoder is one about the sign extension and the slices of its layout. -/

namespace Sys2Proof

/-! ### The sign (R116) -/

/-- From its sign position `n` up, a sign extension copies the sign. -/
theorem getLsbD_signExtend_of_sign_le {n k : Nat} (b : BitVec (n + 1)) (sign : n ≤ k) (inside : k < 32) :
    (b.signExtend 32).getLsbD k = b.msb := by
  rw [BitVec.getLsbD_signExtend, decide_eq_true inside, Bool.true_and]
  split
  next below =>
    obtain rfl : n = k := by omega
    exact (BitVec.msb_eq_getLsbD_last b).symm
  next => rfl

/-- The top bit of a slice that ends at bit 31 is the word's. -/
theorem Instruction.msb_top_slice (w : Instruction) {p n : Nat} (top : p + n = 32) (pos : 0 < n) :
    (w.extractLsb' p n).msb = w.getLsbD 31 := by
  rw [BitVec.msb_eq_getLsbD_last, BitVec.getLsbD_extractLsb', decide_eq_true (by omega), Bool.true_and,
    show p + (n - 1) = 31 by omega]

/-! ### The ranges (R111 to R113, R115, R118) -/

theorem toInt_signExtend_range {n : Nat} (b : BitVec n) (fits : n ≤ 32) :
    -2 ^ (n - 1) ≤ (b.signExtend 32).toInt ∧ (b.signExtend 32).toInt ≤ 2 ^ (n - 1) - 1 := by
  rw [BitVec.toInt_signExtend_of_le fits]
  exact ⟨BitVec.le_toInt b, Int.le_sub_one_of_lt BitVec.toInt_lt⟩

/-- With a zero bit below it, a field counts twice: its range doubles, and only even values are left. -/
theorem toInt_signExtend_append_zero_range {n : Nat} (b : BitVec (n + 1)) (fits : n + 2 ≤ 32) :
    -2 ^ (n + 1) ≤ ((b ++ 0#1).signExtend 32).toInt ∧ ((b ++ 0#1).signExtend 32).toInt ≤ 2 ^ (n + 1) - 2 := by
  have low := BitVec.le_toInt b
  have high := BitVec.toInt_lt (x := b)
  rw [BitVec.toInt_signExtend_of_le fits, BitVec.toInt_append_zero, pow_one, pow_succ]
  rw [Nat.add_sub_cancel] at low high
  omega

theorem toNat_signExtend_append_zero_even {n : Nat} (b : BitVec n) : ((b ++ 0#1).signExtend 32).toNat % 2 = 0 := by
  rw [Nat.mod_two_eq_zero_iff_testBit_zero, BitVec.testBit_toNat]
  exact signExtend_append_zero_even b

/-! ### The bits an immediate reads (R111 to R115) -/

/-- A slice inside a field is the same of two words with the same field. -/
theorem Instruction.slice_congr_field {w w' : Instruction} {q m : Nat} (same : w.extractLsb' q m = w'.extractLsb' q m)
    {p n : Nat} (above : q ≤ p) (inside : p + n ≤ q + m) : w.extractLsb' p n = w'.extractLsb' p n := by
  apply BitVec.eq_of_getLsbD_eq
  intro i hi
  have bit := congrArg (fun field => field.getLsbD (p - q + i)) same
  simp only [BitVec.getLsbD_extractLsb', show p - q + i < m by omega, show q + (p - q + i) = p + i by omega] at bit
  rw [BitVec.getLsbD_extractLsb', BitVec.getLsbD_extractLsb', decide_eq_true hi]
  exact bit

/-! ### The widening (R117) -/

theorem Xlen.word_fits (x : Xlen) : 32 ≤ x.bits := by
  cases x <;> decide

end Sys2Proof

namespace Sys2Proof.Machine

/-! ### The obligations -/

/-- Settles O12: the top slice of each layout ends at w[31], and the sign extension copies its top bit. -/
theorem immediateUpperBitsCopyTheSign : Obligations.ImmediateUpperBitsCopyTheSign := by
  intro w
  have top := fun {p n} => w.msb_top_slice (p := p) (n := n)
  rw [Instruction.iImmediate_eq_layout, Instruction.sImmediate_eq_layout, Instruction.bImmediate_eq_layout,
    Instruction.jImmediate_eq_layout, Instruction.uImmediate_eq_layout]
  refine ⟨fun k sign inside => (getLsbD_signExtend_of_sign_le _ sign inside).trans ?i,
    fun k sign inside => (getLsbD_signExtend_of_sign_le _ sign inside).trans ?s,
    fun k sign inside => (getLsbD_signExtend_of_sign_le _ sign inside).trans ?b,
    fun k sign inside => (getLsbD_signExtend_of_sign_le _ sign inside).trans ?j,
    (BitVec.msb_eq_getLsbD_last _).symm.trans ?u⟩ <;>
    simp (disch := decide) only [BitVec.msb_append, if_neg, top]

/-- Settles O13: I and S are 12 bits sign-extended, B and J 12 and 20 bits above a zero bit; U is a multiple by O10. -/
theorem immediatesStayInTheirRanges : Obligations.ImmediatesStayInTheirRanges := by
  intro w
  rw [(uImmediateIsItsUpperField w).2, Instruction.iImmediate_eq_layout, Instruction.sImmediate_eq_layout,
    Instruction.bImmediate_eq_layout, Instruction.jImmediate_eq_layout]
  refine ⟨?i, ?s, ?b, ?j, ?bEven, ?jEven, ?u⟩
  case i => exact toInt_signExtend_range _ (by decide)
  case s => exact toInt_signExtend_range _ (by decide)
  case b => exact toInt_signExtend_append_zero_range (n := 11) _ (by decide)
  case j => exact toInt_signExtend_append_zero_range (n := 19) _ (by decide)
  case bEven => exact toNat_signExtend_append_zero_even _
  case jEven => exact toNat_signExtend_append_zero_even _
  case u => exact Nat.mul_mod_left _ _

/-- Settles O14: every slice of a layout lies inside a field that the two words share. -/
theorem immediatesIgnoreOtherFields : Obligations.ImmediatesIgnoreOtherFields := by
  intro w w'
  refine ⟨fun upper => ?i, fun funct7 rd => ⟨?s, ?b⟩, fun upper => ⟨?u, ?j⟩⟩
  case i => rw [Instruction.iImmediate_eq_layout, upper, ← Instruction.iImmediate_eq_layout]
  case s => rw [Instruction.sImmediate_eq_layout, funct7, rd, ← Instruction.sImmediate_eq_layout]
  case b =>
    have high := fun p n => Instruction.slice_congr_field funct7 (p := p) (n := n)
    have low := fun p n => Instruction.slice_congr_field rd (p := p) (n := n)
    rw [Instruction.bImmediate_eq_layout, Instruction.bImmediate_eq_layout, high 31 1, low 7 1, high 25 6,
      low 8 4] <;> decide
  case u => rw [Instruction.uImmediate_eq_layout, upper, ← Instruction.uImmediate_eq_layout]
  case j =>
    have slice := fun p n => Instruction.slice_congr_field upper (p := p) (n := n)
    rw [Instruction.jImmediate_eq_layout, Instruction.jImmediate_eq_layout, slice 31 1, slice 12 8, slice 20 1,
      slice 21 10] <;> decide

/-- Settles O15: a sign extension to a width that is no smaller keeps the signed value. -/
theorem wideningKeepsTheSignedValue : Obligations.WideningKeepsTheSignedValue :=
  fun x _ => BitVec.toInt_signExtend_of_le x.word_fits

end Sys2Proof.Machine
end

