-- ==== Sys2Proof/Proofs/Register.lean ====
section
/-! PROOFS. The obligation of spec/44_register.md: the checked constructor of a Register and its number are inverse to
each other on 0 to 31. -/

namespace Sys2Proof

/-! ### The number of a Register (R132, R133) -/

@[simp] theorem Register.number_toNat (r : Register) : (Register.number r).toNat = r.val :=
  Nat.mod_eq_of_lt (r.isLt.trans (by decide))

theorem Register.number_injective : Function.Injective Register.number := by
  intro r r' same
  apply Fin.ext
  rw [← Register.number_toNat r, same, Register.number_toNat r']

/-! ### The checked constructor (R130) -/

theorem Register.new_eq_none_iff {num : BitVec 8} : Register.new num = none ↔ 31 < num.toNat := by
  rw [Register.new]
  split
  case isTrue small => exact iff_of_false nofun (by omega)
  case isFalse large => exact iff_of_true rfl (by omega)

/-- R136, the round trip, in both directions. -/
theorem Register.new_eq_some_iff {num : BitVec 8} {r : Register} :
    Register.new num = some r ↔ Register.number r = num := by
  rw [← BitVec.toNat_inj, Register.number_toNat, Register.new]
  split
  case isTrue small => rw [Option.some_inj, Fin.ext_iff, eq_comm]
  case isFalse large => exact iff_of_false nofun fun same => large (same ▸ r.isLt)

end Sys2Proof

namespace Sys2Proof.Machine

/-! ### The obligation -/

/-- Settles O16: `new` answers the Register of its argument's number, and answers nothing exactly above 31. -/
theorem registerNewRoundTrips : Obligations.RegisterNewRoundTrips := by
  refine ⟨fun num => ⟨fun small => ?_, Register.new_eq_none_iff.2⟩,
    fun r => ⟨Register.new_eq_some_iff.2 rfl, Register.number_toNat r⟩,
    fun _ _ => Register.number_injective.eq_iff.symm⟩
  obtain ⟨r, made⟩ := Option.ne_none_iff_exists'.1 (mt Register.new_eq_none_iff.1 small.not_gt)
  exact ⟨r, made, Register.new_eq_some_iff.1 made⟩

end Sys2Proof.Machine
end

