-- ==== Sys2Proof/Proofs/Exceptions.lean ====
section
/-! PROOFS. The obligations of spec/60_exceptions.md: a Cause is its interrupt bit and its code, and it names an
exception exactly when it is one of the eight values 0 to 7. -/

namespace Sys2Proof

/-! ### The weight of the interrupt bit (R140) -/

theorem Xlen.two_pow_bits (x : Xlen) : 2 ^ x.bits = 2 ^ (x.bits - 1) + 2 ^ (x.bits - 1) := by
  cases x <;> rfl

theorem Xlen.eight_le_interrupt_weight (x : Xlen) : 8 ≤ 2 ^ (x.bits - 1) := by
  cases x <;> decide

/-! ### The two fields of a Cause (R141, R142) -/

theorem Cause.interrupt_iff {x : Xlen} (c : Cause x) : Cause.interrupt c = true ↔ 2 ^ (x.bits - 1) ≤ c.toNat := by
  rw [Cause.interrupt, ← BitVec.msb_eq_getLsbD_last, BitVec.msb_eq_decide, decide_eq_true_iff]

/-- The mask of `code` is every bit below the top one. -/
theorem Cause.toNat_codeMask (x : Xlen) :
    (BitVec.twoPow x.bits (x.bits - 1) - 1).toNat = 2 ^ (x.bits - 1) - 1 := by
  cases x <;> rfl

theorem Cause.toNat_code {x : Xlen} (c : Cause x) : (Cause.code c).toNat = c.toNat % 2 ^ (x.bits - 1) := by
  rw [Cause.code, BitVec.toNat_and, Cause.toNat_codeMask, Nat.and_two_pow_sub_one_eq_mod]

/-- Below the interrupt bit's weight a number is its own remainder; from it on it is below twice the weight. -/
theorem Cause.toNat_eq_interrupt_add_code {x : Xlen} (c : Cause x) :
    c.toNat = (if Cause.interrupt c then 2 ^ (x.bits - 1) else 0) + (Cause.code c).toNat := by
  rw [Cause.toNat_code]
  split_ifs with top
  · have weight := (Cause.interrupt_iff c).1 top
    have below : c.toNat - 2 ^ (x.bits - 1) < 2 ^ (x.bits - 1) := by
      have bound := x.two_pow_bits ▸ c.isLt
      omega
    rw [Nat.mod_eq_sub_mod weight, Nat.mod_eq_of_lt below, Nat.add_sub_cancel' weight]
  · rw [Nat.mod_eq_of_lt (Nat.lt_of_not_le (mt (Cause.interrupt_iff c).2 top)), Nat.zero_add]

/-! ### The eight codes (R143 to R150) -/

/-- The list of the codes holds each at the place of its number. -/
theorem ExceptionCode.all_getElem?_number (e : ExceptionCode) : ExceptionCode.all[e.number]? = some e := by
  cases e <;> rfl

theorem ExceptionCode.mem_all (e : ExceptionCode) : e ∈ ExceptionCode.all :=
  List.mem_of_getElem? e.all_getElem?_number

theorem ExceptionCode.number_injective : Function.Injective ExceptionCode.number := by
  intro e e' same
  rw [← Option.some_inj, ← e.all_getElem?_number, same, e'.all_getElem?_number]

theorem ExceptionCode.number_lt (e : ExceptionCode) : e.number < 8 :=
  (List.getElem?_eq_some_iff.1 e.all_getElem?_number).1

/-- The numbers of the codes are 0 to 7, with none left out. -/
theorem ExceptionCode.exists_number_eq_iff {n : Nat} : (∃ e : ExceptionCode, e.number = n) ↔ n < 8 := by
  constructor
  · rintro ⟨e, rfl⟩
    exact e.number_lt
  · intro small
    have listed : ∀ k : Fin 8, (ExceptionCode.all[k]).number = k := by decide
    exact ⟨_, listed ⟨n, small⟩⟩

/-! ### The exception a Cause names (R153) -/

theorem Cause.eq_ofException_iff {x : Xlen} {c : Cause x} {e : ExceptionCode} :
    c = Cause.ofException x e ↔ e.number = c.toNat := by
  rw [← BitVec.toNat_inj, Cause.toNat_ofException, eq_comm]

theorem Cause.interrupt_ofException (x : Xlen) (e : ExceptionCode) :
    Cause.interrupt (Cause.ofException x e) = false := by
  rw [← Bool.not_eq_true, Cause.interrupt_iff, Cause.toNat_ofException]
  exact (e.number_lt.trans_le x.eight_le_interrupt_weight).not_ge

/-- What the search finds is a code with that Cause. -/
theorem Cause.eq_ofException_of_exception {x : Xlen} {c : Cause x} {e : ExceptionCode}
    (named : Cause.exception c = some e) : c = Cause.ofException x e := by
  rw [Cause.exception] at named
  split_ifs at named
  have found : (Cause.ofException x e == c) = true := List.find?_some (p := (Cause.ofException x · == c)) named
  exact (eq_of_beq found).symm

/-- The search finds some code for a code's Cause, and it is that code: no two codes have the same number. -/
theorem Cause.exception_ofException (x : Xlen) (e : ExceptionCode) :
    Cause.exception (Cause.ofException x e) = some e := by
  have some_named : (Cause.exception (Cause.ofException x e)).isSome := by
    rw [Cause.exception, Cause.interrupt_ofException, if_neg Bool.false_ne_true, List.find?_isSome]
    exact ⟨e, e.mem_all, beq_self_eq_true _⟩
  obtain ⟨e', named⟩ := Option.isSome_iff_exists.1 some_named
  have same := Cause.eq_ofException_iff.1 (Cause.eq_ofException_of_exception named)
  rw [Cause.toNat_ofException] at same
  rw [named, ExceptionCode.number_injective same]

theorem Cause.exception_eq_some_iff {x : Xlen} {c : Cause x} {e : ExceptionCode} :
    Cause.exception c = some e ↔ c = Cause.ofException x e :=
  ⟨Cause.eq_ofException_of_exception, fun same => same ▸ Cause.exception_ofException x e⟩

theorem Cause.exception_eq_none_iff {x : Xlen} {c : Cause x} : Cause.exception c = none ↔ 8 ≤ c.toNat := by
  simp only [Option.eq_none_iff_forall_ne_some, Ne, Cause.exception_eq_some_iff, Cause.eq_ofException_iff]
  rw [← not_exists, ExceptionCode.exists_number_eq_iff, Nat.not_lt]

end Sys2Proof

namespace Sys2Proof.Machine

/-! ### The obligations -/

/-- Settles O17: the top bit of a word is set exactly from half its range on. -/
theorem interruptIsTheTopBit : Obligations.InterruptIsTheTopBit :=
  fun _ => Cause.interrupt_iff

/-- Settles O18: the mask of `code` takes the remainder, and the top bit gives the rest. -/
theorem causeIsItsInterruptBitAndCode : Obligations.CauseIsItsInterruptBitAndCode :=
  fun _ c => ⟨Cause.toNat_code c, Cause.toNat_eq_interrupt_add_code c⟩

/-- Settles O20: the search finds a code exactly at its own Cause, and the codes' numbers are those below 8. -/
theorem onlyCodesBelowEightNameExceptions : Obligations.OnlyCodesBelowEightNameExceptions :=
  fun _ _ => ⟨fun _ => Cause.exception_eq_some_iff, Cause.exception_eq_none_iff⟩

/-- Settles O19: the first clause is about every code at either width; the numbers and the bit's place are values. -/
theorem exceptionCodesAgreeAtBothWidths : Obligations.ExceptionCodesAgreeAtBothWidths := by
  refine ⟨fun x e => ⟨?number, ?clear, ?named⟩, rfl, fun _ => rfl, fun _ => rfl⟩
  case number => exact Cause.toNat_ofException x e
  case clear => exact Cause.interrupt_ofException x e
  case named => exact Cause.exception_ofException x e

end Sys2Proof.Machine
end

