-- ==== Sys2Proof/Proofs/ResetAndHazards.lean ====
section
/-! PROOFS. The obligations of spec/70_reset_and_hazards.md: what stands at reset, and that a store is decoded by the
next fetch. At reset no byte is listed, so every read is the parameter's; after an `Ok` write its bytes are listed, and
the fetch returns them byte by byte. -/

namespace Sys2Proof

/-! ### Slices of words (R45, R46) -/

/-- A slice of a slice is a slice. -/
theorem extractLsb'_extractLsb'_of_add_le {n p l q m : Nat} (b : BitVec n) (inside : q + m ≤ l) :
    (b.extractLsb' p l).extractLsb' q m = b.extractLsb' (p + q) m := by
  apply BitVec.eq_of_getLsbD_eq
  intro i hi
  simp [hi, show q + i < l by omega, Nat.add_assoc]

/-! ### The decoder ignores the upper half of a compressed word (R69) -/

/-- What a compressed word decodes to is encoded as its low half, and decoding undoes encoding. -/
theorem decodeInstruction_lowHalf {w : Instruction} (short : Instruction.compressed w = true) :
    decodeInstruction ((w.extractLsb' 0 16).setWidth 32) = decodeInstruction w := by
  rw [← encode_decodeInstruction_of_compressed short, decodeInstruction_encode (wf_decodeInstruction w)]

/-- The byte decoder reads from the four bytes of a word what the word decodes to, of either length class. -/
theorem decode_bytesOfWord (w : Instruction) : ∃ rest, decode (bytesOfWord w) = .ok (decodeInstruction w, rest) := by
  by_cases short : Instruction.compressed w = true
  · have built := Instruction.fromParcels_lowHalf short 0
    rw [← parcelOfBytes_extractLsb'] at built
    rw [← decodeInstruction_lowHalf short, ← parcelOfBytes_extractLsb']
    exact ⟨_, decode_of_compressed _ built⟩
  · have built := Instruction.fromParcels_halves (Instruction.standard_of_not_compressed short)
    rw [← parcelOfBytes_extractLsb', ← parcelOfBytes_extractLsb'] at built
    exact ⟨_, decode_of_standard [] built⟩

end Sys2Proof

namespace Sys2Proof.Machine

/-! ### Reads of bytes that are not listed (R41, R171) -/

/-- A read that covers no listed byte is `busRead`'s value for that call. -/
theorem Bus.readValue_of_get_none (p : Params) {x : Xlen} {bus : Bus x} {addr : Addr x} {w : Width}
    (unlisted : ∀ k < w.bytes, Memory.get bus.mem (addr.toNat + k) = none) :
    Bus.readValue p bus addr w = p.busRead x addr w bus.log := by
  have bytes : (List.range w.bytes).map (Bus.byteAt p bus addr w) = leBytes w (p.busRead x addr w bus.log) :=
    List.map_congr_left fun k hk => Bus.byteAt_of_get_none p w (unlisted k (List.mem_range.1 hk))
  rw [Bus.readValue, bytes, leNat_leBytes]

/-! ### Fetches of bytes that are listed (R45, R46) -/

/-- A listed byte that a parcel read covers is its byte of the parcel. -/
theorem Bus.readU16_byte (p : Params) {x : Xlen} {bus : Bus x} {addr : Addr x} {k : Nat} {b : Byte} (hk : k < 2)
    (place : addr.toNat + k < 2 ^ x.bits) (listed : Memory.get bus.mem (addr.toNat + k) = some b) :
    (Bus.readU16 p bus addr).1.extractLsb' (8 * k) 8 = b :=
  (Bus.readValue_byte p bus addr (w := .w16) hk).trans (Bus.byteAt_of_get p .w16 place listed)

/-- A listed byte among the four from the fetch position on is its byte of the two fetched parcels: the first parcel's
for the first two, the second's, two bytes further, for the others. -/
theorem State.fetch_byte (p : Params) {s : State} {j : Nat} {b : Byte} (hj : j < 4)
    (place : s.pc.toNat + j < 2 ^ s.xlen.bits) (listed : Memory.get s.hart.bus.mem (s.pc.toNat + j) = some b) :
    ((Bus.readU16 p (Bus.readU16 p s.hart.bus s.pc).2 (nextAddress p s.pc 2)).1 ++
      (Bus.readU16 p s.hart.bus s.pc).1).extractLsb' (8 * j) 8 = b := by
  by_cases inFirst : j < 2
  · rw [BitVec.extractLsb'_append_eq_of_add_le (by omega)]
    exact Bus.readU16_byte p inFirst place listed
  · obtain ⟨i, rfl⟩ := Nat.exists_eq_add_of_le (Nat.le_of_not_lt inFirst)
    have next : (nextAddress p s.pc 2).toNat = s.pc.toNat + 2 := nextAddress_toNat p s.pc (by omega)
    rw [← Nat.add_assoc, ← next] at place listed
    rw [BitVec.extractLsb'_append_eq_of_le (by omega), Nat.mul_add, Nat.add_sub_cancel_left]
    exact Bus.readU16_byte p (by omega) place listed

/-- A step whose first parcel is compressed runs what that parcel decodes to, whatever the second parcel (R91). -/
theorem step_of_first_compressed {s : State} {p0 : Parcel} (first : (Bus.readU16 Config.params s.hart.bus s.pc).1 = p0)
    (short : p0.toNat % 4 ≠ 3) :
    step s = exec (decodeInstruction (p0.setWidth 32)) (s.fetch Config.params).2 := by
  have built := fun p1 => Instruction.fromParcels_of_compressed p1 (mt (Parcel.low_iff p0).1 short)
  rw [step, State.fetch, first, built]

/-! ### A slice of a write (R46, R53) -/

/-- Where all bytes of an access inside an `Ok` write land, they stand listed as that slice of the written value. -/
theorem Bus.holds_write_slice (p : Params) {x : Xlen} (bus : Bus x) (a : Addr x) {w : Width} (v : BitVec w.bits)
    (ok : p.busWrite x a w v bus.log = .ok) {w' : Width} {k base : Nat} (start : base = a.toNat + k)
    (covered : k + w'.bytes ≤ w.bytes) (places : base + w'.bytes ≤ 2 ^ x.bits)
    (memory : ∀ j < w'.bytes, p.isDevice x (base + j) = false) :
    Bus.Holds (Bus.write p bus a w v).2 base (leBytes w' (v.extractLsb' (8 * k) w'.bits)) := by
  subst start
  refine Bus.holds_of_get fun j hj => ?_
  rw [leBytes_length] at hj
  have memory := memory j hj
  rw [Nat.add_assoc] at memory ⊢
  have inside : 8 * j + 8 ≤ w'.bits := by cases w' <;> simp only [Width.bytes, Width.bits] at hj ⊢ <;> omega
  rw [Bus.write_get_landed p bus a w v ok (by omega) (by omega) memory]
  simp only [leBytes, List.getElem_map, List.getElem_range]
  rw [extractLsb'_extractLsb'_of_add_le v inside, Nat.mul_add]

/-! ### The invariant at reset -/

/-- A state with nothing listed and nothing recorded meets the invariant at every even fetch position. -/
theorem State.inv_resetAt (x : Xlen) {pc : Addr x} (even : pc.getLsbD 0 = false) : (State.resetAt x pc).Inv where
  canonical := ⟨List.Pairwise.nil, List.forall_mem_nil _⟩
  aligned := even
  sound := List.forall_mem_nil _
  consecutive := trivial

/-! ### The obligations -/

/-- Settles O51: `State.inv_resetAt`; position 0 is even. -/
theorem resetMeetsTheInvariant : Obligations.ResetMeetsTheInvariant :=
  ⟨fun x _ => State.inv_resetAt x, State.inv_resetAt .x32 rfl⟩

/-- Settles O22: nothing is listed at reset, so a read covers no listed byte. -/
theorem resetReadsAreTheOpenParameters : Obligations.ResetReadsAreTheOpenParameters := by
  intro p x pc a w r
  exact ⟨rfl, Bus.readValue_of_get_none p fun _ _ => rfl, Hart.loadRegister_def p _ r⟩

/-- Settles O49: the bytes of the write that land are listed, so the fetch returns each (`State.fetch_byte`), a whole
compressed parcel as its first parcel, and four bytes as the byte decoder reads them (`step_of_holds`). -/
theorem storeToTheFetchPositionIsDecodedNext : Obligations.StoreToTheFetchPositionIsDecodedNext := by
  intro p s a w v ok s' first second
  refine ⟨rfl, ?bytes, fun k start => ⟨?parcel, ?word⟩⟩
  case bytes =>
    intro j hj k hk same place memory
    have listed := Bus.write_get_landed p s.hart.bus a w v ok hk (same ▸ place) (same ▸ memory)
    rw [← same] at listed
    exact State.fetch_byte (s := s') Config.params hj place listed
  case parcel =>
    intro covered places memory short
    have listed := Bus.holds_write_slice p s.hart.bus a v ok (w' := .w16) start covered places memory
    exact step_of_first_compressed (s := s') (Bus.readValue_of_holds Config.params places listed) short
  case word =>
    intro covered places memory
    have listed := Bus.holds_write_slice p s.hart.bus a v ok (w' := .w32) start covered places memory
    obtain ⟨rest, decoded⟩ := decode_bytesOfWord (v.extractLsb' (8 * k) 32)
    exact step_of_holds (s := s') decoded places listed

end Sys2Proof.Machine
end
